-- ==== Sys2Proof/Word.lean ====
section
/-!
DEFINITION. The two word types of the core: the 64-bit data value (`spec/00_scope.md` R6) and the 80-bit
instruction word (`spec/30_encoding.md` R45). A data value `v` read as a signed number, the spec's `s(v)`, is `v.toInt`.
-/

namespace Sys2Proof

/-- A stack slot, a register, an immediate or the output: 64 bits (R6). -/
abbrev Word := BitVec 64

/-- One instruction word, `I[79:0]` (R45). -/
abbrev IWord := BitVec 80

end Sys2Proof
end

