-- ==== Sys2Proof/Config.lean ====
section
/-!
DEFINITION. What an implementation fixes and the one free value. NREG, PREFLIGHT and the capacity are carried by
State, so that the model covers every legal choice of them; this file names the choices `State.reset` is made with.
-/

namespace Sys2Proof.Config

/-- NREG's default (`spec/00_scope.md` R5). -/
def nregDefault : Nat := 4

/-- PREFLIGHT's default, `off` (R5). -/
def preflightDefault : Bool := false

/-- DESIGN CHOICE (unsafe, log entry 1): the `cap` input that `State.reset` was made with. The spec leaves the capacity
to the host; 4 is the value of its reset vector V-RS1. -/
def resetCapacity : Nat := 4

/-- The free value of a stack slot that nothing has written since the last reset: `any value` (`spec/10_state.md` R25,
`spec/93_implementation_defined.md` U14). Its arguments are the number of resets so far and the slot's index. It has no
body, so nothing can be proved of what it is. DESIGN CHOICE (safe, log entry 3). -/
opaque unwrittenSlot : Nat → Nat → Word

end Sys2Proof.Config
end

