-- ==== Sys2Proof/Syntax.lean ====
section
/-!
DEFINITION. The abstract instruction (`spec/30_encoding.md` R44), the level at which the source is normative: 26
opcodes, each with exactly the operands it needs. One constructor per row of spec/opcode_table.json, in its order.
-/

namespace Sys2Proof

/-- The names of the general registers `x[0]` to `x[7]` (`spec/10_state.md` R10). A core has the first NREG of them. -/
inductive Reg where
  | RA | RB | RC | RD | RE | RF | RG | RH
  deriving DecidableEq, Repr

/-- The `i` of `x[i]` (R10). -/
def Reg.index : Reg → Nat
  | .RA => 0
  | .RB => 1
  | .RC => 2
  | .RD => 3
  | .RE => 4
  | .RF => 5
  | .RG => 6
  | .RH => 7

/-- The abstract instructions (R44, R49). Operand order is the listing's: immediate first, register second (R53). -/
inductive Instr where
  | push (imm : Word)
  | pop
  | plus
  | minus
  | mult
  | div
  | move (imm : Word) (ra : Reg)
  | load (ra : Reg)
  | unload (ra : Reg)
  | append (ra : Reg)
  | appendVal (imm : Word) (ra : Reg)
  | decrement (ra : Reg)
  | decrementVal (imm : Word) (ra : Reg)
  | cmp (ra rb : Reg)
  | cmpVal (imm : Word) (ra : Reg)
  | jump (imm : Word)
  | jeq (imm : Word)
  | jne (imm : Word)
  | jgr (imm : Word)
  | jge (imm : Word)
  | jle (imm : Word)
  | jls (imm : Word)
  | label
  | halt
  | peek
  | returnReg (ra : Reg)
  deriving DecidableEq, Repr

/-- The registers an instruction names, that is its used register fields (R44, R46). -/
def Instr.regs : Instr → List Reg
  | .push _ => []
  | .pop => []
  | .plus => []
  | .minus => []
  | .mult => []
  | .div => []
  | .move _ ra => [ra]
  | .load ra => [ra]
  | .unload ra => [ra]
  | .append ra => [ra]
  | .appendVal _ ra => [ra]
  | .decrement ra => [ra]
  | .decrementVal _ ra => [ra]
  | .cmp ra rb => [ra, rb]
  | .cmpVal _ ra => [ra]
  | .jump _ => []
  | .jeq _ => []
  | .jne _ => []
  | .jgr _ => []
  | .jge _ => []
  | .jle _ => []
  | .jls _ => []
  | .label => []
  | .halt => []
  | .peek => []
  | .returnReg ra => [ra]

end Sys2Proof
end

