-- ==== Sys2Proof/WellFormed.lean ====
section
/-!
DEFINITION. The checks that put a term inside the specification: an instruction names only registers its core has
(`spec/30_encoding.md` R48), a register count, a stack capacity and a program length are in range
(`spec/00_scope.md` R5).
-/

namespace Sys2Proof

/-- Every register an instruction names exists on a core with `nreg` registers (R48; invariant (d) of
`spec/10_state.md` R26). -/
abbrev WellFormed (nreg : Nat) (i : Instr) : Prop :=
  ∀ r ∈ i.regs, r.index < nreg

/-- NREG is 4, 5, 6, 7 or 8 (R5). -/
abbrev WellFormedRegisterCount (nreg : Nat) : Prop :=
  4 ≤ nreg ∧ nreg ≤ 8

/-- A stack has at least one slot (R5, decision D21). -/
abbrev WellFormedCapacity (cap : Nat) : Prop :=
  1 ≤ cap

/-- A program has at most `2^63 - 1` words (R5, decision D20). -/
abbrev WellFormedProgram (program : List IWord) : Prop :=
  program.length < 2 ^ 63

end Sys2Proof
end

