-- ==== Sys2Proof/Decode.lean ====
section
/-!
DEFINITION. Decoding of the 80-bit instruction word (`spec/30_encoding.md` R45 to R52, R55) and, after it, the canonical
encoder (R50). Decoding is total: every word is one of the 26 instructions or Unknown, which is answered with the reason.
-/

namespace Sys2Proof

/-! ### Fields of the word (R45) -/

/-- `I[79:72]`, the opcode number. -/
def opField (w : IWord) : BitVec 8 := w.extractLsb' 72 8

/-- `I[71:68]`, the first or only register index. -/
def raField (w : IWord) : BitVec 4 := w.extractLsb' 68 4

/-- `I[67:64]`, the second register index. -/
def rbField (w : IWord) : BitVec 4 := w.extractLsb' 64 4

/-- `I[63:0]`, the immediate, used as it stands (R47). -/
def immField (w : IWord) : Word := w.extractLsb' 0 64

/-! ### Decoding (R55) -/

/-- Why a word is `Unknown`. Both reasons raise UnknownOperation (`spec/60_exceptions.md` R99). -/
inductive Unknown where
  /-- The opcode number is not in the opcode map (R51). -/
  | illegalOpcode (op : BitVec 8)
  /-- A register field that the format uses is NREG or more (R48). -/
  | noSuchRegister (field : BitVec 4)
  deriving DecidableEq, Repr

/-- The register with index `n`; none from 8 on, where bit 3 of the field is set (R48). -/
def regOfIndex : Nat → Option Reg
  | 0 => some .RA
  | 1 => some .RB
  | 2 => some .RC
  | 3 => some .RD
  | 4 => some .RE
  | 5 => some .RF
  | 6 => some .RG
  | 7 => some .RH
  | _ => none

/-- A used register field names `x[field]` when it is less than NREG (R48). -/
def decodeReg (nreg : Nat) (field : BitVec 4) : Except Unknown Reg :=
  match regOfIndex field.toNat with
  | some r => if r.index < nreg then .ok r else .error (.noSuchRegister field)
  | none => .error (.noSuchRegister field)

/-- A format with one used register field: `ra` (R46). -/
def decodeWithRa (nreg : Nat) (w : IWord) (make : Reg → Instr) : Except Unknown Instr :=
  match decodeReg nreg (raField w) with
  | .ok ra => .ok (make ra)
  | .error e => .error e

/-- Format RR, with both register fields used (R46). -/
def decodeWithRaRb (nreg : Nat) (w : IWord) (make : Reg → Reg → Instr) : Except Unknown Instr :=
  match decodeReg nreg (raField w) with
  | .ok ra =>
    match decodeReg nreg (rbField w) with
    | .ok rb => .ok (make ra rb)
    | .error e => .error e
  | .error e => .error e

/-- `Decode(I)` on a core with `nreg` registers (R55): it reads nothing but the word and NREG. -/
def decode (nreg : Nat) (w : IWord) : Except Unknown Instr :=
  match (opField w).toNat with
  | 0x01 => .ok (.push (immField w))
  | 0x02 => .ok .pop
  | 0x03 => .ok .plus
  | 0x04 => .ok .minus
  | 0x05 => .ok .mult
  | 0x06 => .ok .div
  | 0x07 => decodeWithRa nreg w (.move (immField w))
  | 0x08 => decodeWithRa nreg w .load
  | 0x09 => decodeWithRa nreg w .unload
  | 0x0A => decodeWithRa nreg w .append
  | 0x0B => decodeWithRa nreg w (.appendVal (immField w))
  | 0x0C => decodeWithRa nreg w .decrement
  | 0x0D => decodeWithRa nreg w (.decrementVal (immField w))
  | 0x0E => decodeWithRaRb nreg w .cmp
  | 0x0F => decodeWithRa nreg w (.cmpVal (immField w))
  | 0x10 => .ok (.jump (immField w))
  | 0x11 => .ok (.jeq (immField w))
  | 0x12 => .ok (.jne (immField w))
  | 0x13 => .ok (.jgr (immField w))
  | 0x14 => .ok (.jge (immField w))
  | 0x15 => .ok (.jle (immField w))
  | 0x16 => .ok (.jls (immField w))
  | 0x17 => .ok .label
  | 0x18 => .ok .halt
  | 0x19 => .ok .peek
  | 0x1A => decodeWithRa nreg w .returnReg
  | _ => .error (.illegalOpcode (opField w))

/-- The word whose bits, numbered as spec/opcode_table.json numbers them, are `w`. A row is one 80-bit word, so there is
no byte order to choose (`spec/20_memory.md` R34; log entry 14). -/
def tableWord (nbits w : Nat) : IWord := BitVec.ofNat 80 (w % 2 ^ nbits)

/-- The instruction the decoder reads from a row's bits on a core with the default NREG; none where it is Unknown. -/
def decodeTableWord (nbits w : Nat) : Option Instr :=
  match decode Config.nregDefault (tableWord nbits w) with
  | .ok i => some i
  | .error _ => none

/-! ### The canonical encoder (R45, R49, R50) -/

/-- The opcode number of each instruction (R49). -/
def Instr.opcode : Instr → BitVec 8
  | .push _ => 0x01
  | .pop => 0x02
  | .plus => 0x03
  | .minus => 0x04
  | .mult => 0x05
  | .div => 0x06
  | .move _ _ => 0x07
  | .load _ => 0x08
  | .unload _ => 0x09
  | .append _ => 0x0A
  | .appendVal _ _ => 0x0B
  | .decrement _ => 0x0C
  | .decrementVal _ _ => 0x0D
  | .cmp _ _ => 0x0E
  | .cmpVal _ _ => 0x0F
  | .jump _ => 0x10
  | .jeq _ => 0x11
  | .jne _ => 0x12
  | .jgr _ => 0x13
  | .jge _ => 0x14
  | .jle _ => 0x15
  | .jls _ => 0x16
  | .label => 0x17
  | .halt => 0x18
  | .peek => 0x19
  | .returnReg _ => 0x1A

/-- A word from its four fields (R45). -/
def packWord (op : BitVec 8) (ra rb : BitVec 4) (imm : Word) : IWord :=
  op ++ ra ++ rb ++ imm

/-- A register's index as a field of the word. -/
def regField (r : Reg) : BitVec 4 := BitVec.ofNat 4 r.index

/-- Format N: no operand (R46). -/
def encodeN (op : BitVec 8) : IWord := packWord op 0 0 0

/-- Format I: an immediate (R46). -/
def encodeI (op : BitVec 8) (imm : Word) : IWord := packWord op 0 0 imm

/-- Format R: one register (R46). -/
def encodeR (op : BitVec 8) (ra : Reg) : IWord := packWord op (regField ra) 0 0

/-- Format RR: two registers (R46). -/
def encodeRR (op : BitVec 8) (ra rb : Reg) : IWord := packWord op (regField ra) (regField rb) 0

/-- Format IR: an immediate and a register (R46). -/
def encodeIR (op : BitVec 8) (imm : Word) (ra : Reg) : IWord := packWord op (regField ra) 0 imm

/-- The canonical word of an instruction: every unused field zero (R50). -/
def encode (i : Instr) : IWord :=
  match i with
  | .push imm => encodeI i.opcode imm
  | .pop => encodeN i.opcode
  | .plus => encodeN i.opcode
  | .minus => encodeN i.opcode
  | .mult => encodeN i.opcode
  | .div => encodeN i.opcode
  | .move imm ra => encodeIR i.opcode imm ra
  | .load ra => encodeR i.opcode ra
  | .unload ra => encodeR i.opcode ra
  | .append ra => encodeR i.opcode ra
  | .appendVal imm ra => encodeIR i.opcode imm ra
  | .decrement ra => encodeR i.opcode ra
  | .decrementVal imm ra => encodeIR i.opcode imm ra
  | .cmp ra rb => encodeRR i.opcode ra rb
  | .cmpVal imm ra => encodeIR i.opcode imm ra
  | .jump imm => encodeI i.opcode imm
  | .jeq imm => encodeI i.opcode imm
  | .jne imm => encodeI i.opcode imm
  | .jgr imm => encodeI i.opcode imm
  | .jge imm => encodeI i.opcode imm
  | .jle imm => encodeI i.opcode imm
  | .jls imm => encodeI i.opcode imm
  | .label => encodeN i.opcode
  | .halt => encodeN i.opcode
  | .peek => encodeN i.opcode
  | .returnReg ra => encodeR i.opcode ra

end Sys2Proof
end

