-- ==== Sys2Proof/Machine/Alu.lean ====
section
/-!
DEFINITION. The ALU's integer laws (`spec/41_arith.md` R63): the exact integer result of the signed operands, wrapped to
64 bits.
-/

namespace Sys2Proof.Machine

/-- `wrap64(n)`: the 64-bit vector congruent to `n` modulo `2^64` (`spec/00_scope.md` R6). -/
def wrap64 (n : Int) : Word := BitVec.ofInt 64 n

/-- `a +s b` (R63). -/
def aluAdd (a b : Word) : Word := wrap64 (a.toInt + b.toInt)

/-- `a -s b` (R63). -/
def aluSub (a b : Word) : Word := wrap64 (a.toInt - b.toInt)

/-- `a *s b`, the low 64 bits of the product (R63). -/
def aluMul (a b : Word) : Word := wrap64 (a.toInt * b.toInt)

/-- `a /s b` for a divisor that is not 0: the quotient rounded toward zero, so `-2^63 /s -1` wraps to `-2^63` (R63). The
caller has raised DivisionByZero for the divisor 0 (R62). -/
def aluDiv (a b : Word) : Word := wrap64 (a.toInt.tdiv b.toInt)

end Sys2Proof.Machine
end

