-- ==== Sys2Proof/Machine/State.lean ====
section
/-!
DEFINITION. The state of the core, all of it plain data (`spec/10_state.md`), the state after reset (R25), and the two
closed lists of reasons for which a step of the model stops. The eight errors of the core are not among them: an error
is a next state (`spec/60_exceptions.md` R91).
-/

namespace Sys2Proof.Machine

/-- The three values of the compare flag (R16). -/
inductive CompareFlag where
  /-- -1 -/
  | minusOne
  /-- 0 -/
  | zero
  /-- +1 -/
  | plusOne
  deriving DecidableEq, Repr

/-- The nine values of `err` (R18, `spec/60_exceptions.md` R90), in the order of their codes. -/
inductive ErrorCode where
  /-- `None`: the run is in progress or ended in success. -/
  | noError
  | stackOverflow
  | stackUnderflow
  | stackEmpty
  | invalidJumpAddress
  | invalidMemoryAccess
  | programWithoutHalt
  | divisionByZero
  | unknownOperation
  deriving DecidableEq, Repr

/-- The stack memory `stk` (R22, `spec/20_memory.md` R29): the slots written since reset, as pairs of a slot's index and
its 64 bits, indices strictly rising (`Memory.wf`). A slot that is not listed has not been written since reset. -/
abbrev Memory := List (Nat × Word)

/-- What the host drives on the core's input ports (R24). The program memory answers `instr = Program[fetch_idx]`, and
`prog_len` is the program's length `N` (log entries 5 and 15). -/
structure Pins where
  /-- `rst`: reset is asserted. -/
  rst : Bool
  /-- `cap`: the stack capacity a reset samples. -/
  cap : Word
  /-- `start`: START is asserted. -/
  start : Bool
  /-- `out_init`: the value of `OUT_INIT` that START samples. -/
  outInit : Word
  /-- `Program`, `N` instruction words (R23, `spec/20_memory.md` R33). -/
  program : List IWord
  deriving DecidableEq, Repr

/-- Every piece of state the spec gives the core (R10 to R22), its build-time configuration (R23), the host's input
ports (R24), and one field of the model's own. -/
structure State where
  /-- `x[0..NREG-1]` (R10); the list's length is NREG. -/
  regs : List Word
  /-- The compare flag (R16). -/
  cf : CompareFlag
  /-- `stk[0..C-1]` (R22). -/
  slots : Memory
  /-- `S`, the number of values on the stack (R21). -/
  size : Nat
  /-- `C`, the number of slots (R21). -/
  cap : Nat
  /-- The instruction pointer (R13). -/
  ip : BitVec 64
  /-- 0 is Running, 1 is Halted (R17). -/
  halted : Bool
  /-- The output of a run (R19). -/
  out : Word
  /-- The result of the current or last run (R18). -/
  err : ErrorCode
  /-- 1 from START until the step that ends the run (R20). -/
  active : Bool
  /-- PREFLIGHT is on (R23; configuration, never changes). -/
  preflight : Bool
  /-- The input ports (R24; driven by the host, never changed by a step). -/
  pins : Pins
  /-- The MODEL's own: how many resets there have been, read by the free value of an unwritten slot (log entry 3). -/
  resetCount : Nat
  deriving DecidableEq, Repr

/-- NREG, the number of general registers (R10). -/
def State.nreg (s : State) : Nat := s.regs.length

/-- `N`, the length of the program (`spec/00_scope.md` R5). -/
def State.progLen (s : State) : Nat := s.pins.program.length

/-- Why the machine stops with a fault. -/
inductive Fault where
  /-- A stack access at an index that is not in `0 .. C-1` (`spec/20_memory.md` R29, R30). Raised by `memRead` and
  `memWrite`, only in states with `S > C`, which break invariant (a) of R26. Safe (log entry 9). -/
  | slotOutOfRange
  deriving DecidableEq, Repr

/-- Why the model gives a step no meaning. -/
inductive Refusal where
  /-- An instruction that has no meaning yet; no arm of `exec` answers it. Safe. -/
  | notModelled (mnemonic : String)
  /-- A reset with `cap = 0`, raised by `resetCore`: outside the specification, a model refuses it (R21,
  `spec/93_implementation_defined.md` U15). Safe (log entry 8). -/
  | resetWithZeroCapacity
  /-- A START with `N >= 2^63`, raised by `startRun`: outside the specification, a model refuses it
  (`spec/93_implementation_defined.md` U21). Safe (log entry 8). -/
  | programTooLong
  deriving DecidableEq, Repr

/-- The core after a reset (R25) with `nreg` registers and capacity `cap`, under the given input ports. -/
def State.afterReset (nreg : Nat) (preflight : Bool) (cap : Nat) (pins : Pins) (resetCount : Nat) : State where
  regs := List.replicate nreg 0
  cf := .zero
  slots := []
  size := 0
  cap := cap
  ip := 0
  halted := false
  out := 0
  err := .noError
  active := false
  preflight := preflight
  pins := pins
  resetCount := resetCount

/-- The machine right after reset: the values of R25, NREG and PREFLIGHT at their defaults (R5), a stack of
`Config.resetCapacity` slots (log entry 1) and the host driving nothing (log entry 6). -/
def State.reset : State :=
  State.afterReset Config.nregDefault Config.preflightDefault Config.resetCapacity
    { rst := false, cap := BitVec.ofNat 64 Config.resetCapacity, start := false, outInit := 0, program := [] } 0

end Sys2Proof.Machine
end

