-- ==== Sys2Proof/Machine/Ops.lean ====
section
/-!
DEFINITION. The named operations on the state that every meaning is written with: the stack memory and its primitives
MemRead and MemWrite (`spec/20_memory.md` R30), the single-field updates, fetch (R33), and the one thing an error does,
`raise` (`spec/60_exceptions.md` R91). There is no return from an error (R105).
-/

namespace Sys2Proof.Machine

/-- What a meaning answers. -/
abbrev Result := Host.Outcome State Fault Refusal

/-! ### The stack memory -/

/-- The canonical form of the stack memory: slot indices strictly rising. An unlisted slot reads as no value, so no entry
equals what an unlisted slot reads as. -/
abbrev Memory.wf (m : Memory) : Prop := m.Pairwise (fun a b => a.1 < b.1)

/-- The value written to slot `i` since reset, if any. -/
def Memory.read : Memory → Nat → Option Word
  | [], _ => none
  | (j, v) :: rest, i => if i = j then some v else Memory.read rest i

/-- Slot `i` replaced by `v`, in canonical form. -/
def Memory.write : Memory → Nat → Word → Memory
  | [], i, v => [(i, v)]
  | (j, u) :: rest, i, v =>
    if i < j then (i, v) :: (j, u) :: rest
    else if i = j then (i, v) :: rest
    else (j, u) :: Memory.write rest i v

/-- `stk[i]`, the 64 bits of slot `i`. A slot not written since reset holds a free value (`spec/10_state.md` R25, U14;
log entry 3). -/
def State.slot (s : State) (i : Nat) : Word :=
  (s.slots.read i).getD (Config.unwrittenSlot s.resetCount i)

/-- `stk[i] <- v`. -/
def State.setSlot (s : State) (i : Nat) (v : Word) : State :=
  { s with slots := s.slots.write i v }

/-- `MemRead(i, 64)` (R30), the rest of the meaning continuing with the value read. The space is `0 .. C-1` (R29). -/
def memRead (s : State) (i : Nat) (k : Word → Result) : Result :=
  if i < s.cap then k (s.slot i) else .fault .slotOutOfRange

/-- `MemWrite(i, 64, v)` (R30), the rest of the meaning continuing with the state written. The space is `0 .. C-1`
(R29). -/
def memWrite (s : State) (i : Nat) (v : Word) (k : State → Result) : Result :=
  if i < s.cap then k (s.setSlot i v) else .fault .slotOutOfRange

/-! ### Registers and single-field updates -/

/-- `x[i]` of the register named, if the core has it (`spec/10_state.md` R10). -/
def State.reg? (s : State) (r : Reg) : Option Word := s.regs[r.index]?

/-- `x[i] <- v`. -/
def State.setReg (s : State) (r : Reg) (v : Word) : State :=
  { s with regs := s.regs.set r.index v }

/-- `S <- n`. -/
def State.setSize (s : State) (n : Nat) : State := { s with size := n }

/-- `cf <- f`. -/
def State.setCf (s : State) (f : CompareFlag) : State := { s with cf := f }

/-- `out <- v`. -/
def State.setOut (s : State) (v : Word) : State := { s with out := v }

/-- `ip <- t`. -/
def State.setIp (s : State) (t : BitVec 64) : State := { s with ip := t }

/-- `ip <- ip + 1`, the default of every opcode that is no jump and not `halt` (`spec/10_state.md` R14). -/
def State.advance (s : State) : State := s.setIp (s.ip + 1)

/-- `halted <- 1` (`spec/44_control.md` R86). -/
def State.setHalted (s : State) : State := { s with halted := true }

/-- `active <- 0`, which ends a run (`spec/44_control.md` R74). -/
def State.endRun (s : State) : State := { s with active := false }

/-- `raise E`, everything an error does (`spec/60_exceptions.md` R91): the code is latched in `err`, the run ends, and
nothing else changes. -/
def State.raise (s : State) (e : ErrorCode) : State := { s with err := e, active := false }

/-! ### Fetch -/

/-- `Fetch(ip)`, the word `Program[ip]`; none when not `ip < N` (`spec/20_memory.md` R33). -/
def State.fetch (s : State) : Option IWord := s.pins.program[s.ip.toNat]?

/-- A program with the word `w` at index `i`, lengthened with zero words if it is shorter than that. -/
def placeWord (program : List IWord) (i : Nat) (w : IWord) : List IWord :=
  (program ++ List.replicate (i + 1 - program.length) 0).set i w

end Sys2Proof.Machine
end

