-- ==== Sys2Proof/Machine/Operands.lean ====
section
/-!
DEFINITION. The operand forms, each with the checks that come before any write: a register operand, the top of the
stack, the two top slots, a push, and a jump target. Every check of an instruction precedes every write of it
(`spec/60_exceptions.md` R91, decision D9).
-/

namespace Sys2Proof.Machine

/-- A register operand, read at the moment the instruction executes (`spec/10_state.md` R12). A register the core does
not have makes the instruction Unknown (`spec/30_encoding.md` R48); the decoder has refused such a word already, so a
step never comes to it (log entry 10). -/
def withReg (s : State) (r : Reg) (k : Word → Result) : Result :=
  match s.reg? r with
  | some v => k v
  | none => .next (s.raise .unknownOperation)

/-- The top of the stack, `stk[S-1]`: StackEmpty when `S = 0` (`spec/20_memory.md` R31, `spec/60_exceptions.md` R94). -/
def withTop (s : State) (k : Word → Result) : Result :=
  if s.size = 0 then .next (s.raise .stackEmpty)
  else memRead s (s.size - 1) k

/-- The two top slots, second from top first: StackUnderflow when `S < 2` (`spec/41_arith.md` R58). -/
def withTopTwo (s : State) (k : Word → Word → Result) : Result :=
  if s.size < 2 then .next (s.raise .stackUnderflow)
  else memRead s (s.size - 2) (fun a => memRead s (s.size - 1) (fun b => k a b))

/-- `Push(v)` as an instruction's effect: StackOverflow when `S + 1 > C`, else `stk[S] <- v`, `S <- S + 1`, `ip <- ip + 1`
(`spec/20_memory.md` R31, `spec/60_exceptions.md` R92). -/
def pushValue (s : State) (v : Word) : Result :=
  if s.size + 1 > s.cap then .next (s.raise .stackOverflow)
  else memWrite s s.size v (fun t => .next (t.setSize (s.size + 1)).advance)

/-- The result of a binary operation takes the place of its left-hand operand and `S` drops by 1 (R58). -/
def replaceTopTwo (s : State) (v : Word) : Result :=
  memWrite s (s.size - 2) v (fun t => .next (t.setSize (s.size - 1)).advance)

/-- `JumpTo(imm)`: the target is the immediate read as signed, valid when `0 <= t < N` (`spec/44_control.md` R76). -/
def jumpTo (s : State) (imm : Word) : Result :=
  if imm.toInt < 0 ∨ imm.toInt ≥ s.progLen then .next (s.raise .invalidJumpAddress)
  else .next (s.setIp imm)

/-- `CondJump(cond, imm)`: the condition first, and the target examined only when it holds (R78). -/
def condJump (s : State) (taken : Bool) (imm : Word) : Result :=
  if taken then jumpTo s imm else .next s.advance

end Sys2Proof.Machine
end

