-- ==== Sys2Proof/Machine/Arith.lean ====
section
/-!
DEFINITION. The arithmetic instructions (`spec/41_arith.md` R58 to R62): `second_from_top OP top`.
-/

namespace Sys2Proof.Machine

/-- `plus` (R59). -/
def execPlus (s : State) : Result := withTopTwo s (fun a b => replaceTopTwo s (aluAdd a b))

/-- `minus` (R60). -/
def execMinus (s : State) : Result := withTopTwo s (fun a b => replaceTopTwo s (aluSub a b))

/-- `mult` (R61). -/
def execMult (s : State) : Result := withTopTwo s (fun a b => replaceTopTwo s (aluMul a b))

/-- `div` (R62): `S < 2` is checked before the divisor. -/
def execDiv (s : State) : Result :=
  withTopTwo s (fun a b =>
    if b.toInt = 0 then .next (s.raise .divisionByZero) else replaceTopTwo s (aluDiv a b))

end Sys2Proof.Machine
end

