-- ==== Sys2Proof/Machine/Flags.lean ====
section
/-!
DEFINITION. The compare flag (`spec/10_state.md` R16): its number and its bits, the two compares that write it, which
have opposite polarities (`spec/43_compare.md` R71 to R73), and the six conditions that read it
(`spec/44_control.md` R78).
-/

namespace Sys2Proof.Machine

/-- The flag as the integer the spec writes (R16). -/
def CompareFlag.toInt : CompareFlag → Int
  | .minusOne => -1
  | .zero => 0
  | .plusOne => 1

/-- The flag as a 2-bit two's complement field, in which `0b10` never occurs (R16). -/
def CompareFlag.bits : CompareFlag → BitVec 2
  | .minusOne => 0b11
  | .zero => 0b00
  | .plusOne => 0b01

/-- The flag's negation, the other polarity (R71). -/
def CompareFlag.neg : CompareFlag → CompareFlag
  | .minusOne => .plusOne
  | .zero => .zero
  | .plusOne => .minusOne

/-- `cmp3(a, b)`, the three-way signed comparison (R71). -/
def cmp3 (a b : Word) : CompareFlag :=
  if a.toInt > b.toInt then .plusOne
  else if a.toInt < b.toInt then .minusOne
  else .zero

/-- The flag `cmp ra, rb` writes, `-cmp3(x[ra], x[rb])` (R72). -/
def cmpFlag (xa xb : Word) : CompareFlag := (cmp3 xa xb).neg

/-- The flag `cmp_val imm, ra` writes, `cmp3(x[ra], imm)` (R73). -/
def cmpValFlag (xa imm : Word) : CompareFlag := cmp3 xa imm

/-- `jeq` is taken when `cf = 0` (R79). -/
def CompareFlag.isEq (f : CompareFlag) : Bool := f.toInt == 0

/-- `jne` is taken when `cf != 0` (R80). -/
def CompareFlag.isNe (f : CompareFlag) : Bool := f.toInt != 0

/-- `jgr` is taken when `cf = +1` (R81). -/
def CompareFlag.isGr (f : CompareFlag) : Bool := f.toInt == 1

/-- `jge` is taken when `cf >= 0` (R82). -/
def CompareFlag.isGe (f : CompareFlag) : Bool := decide (f.toInt ≥ 0)

/-- `jle` is taken when `cf <= 0` (R83). -/
def CompareFlag.isLe (f : CompareFlag) : Bool := decide (f.toInt ≤ 0)

/-- `jls` is taken when `cf = -1` (R84). -/
def CompareFlag.isLs (f : CompareFlag) : Bool := f.toInt == -1

end Sys2Proof.Machine
end

