-- ==== Sys2Proof/Machine/Compare.lean ====
section
/-!
DEFINITION. The two compare instructions, of opposite polarities (`spec/43_compare.md` R71 to R73).
-/

namespace Sys2Proof.Machine

/-- `cmp ra, rb` (R72). -/
def execCmp (ra rb : Reg) (s : State) : Result :=
  withReg s ra (fun xa => withReg s rb (fun xb => .next (s.setCf (cmpFlag xa xb)).advance))

/-- `cmp_val imm, ra` (R73). -/
def execCmpVal (imm : Word) (ra : Reg) (s : State) : Result :=
  withReg s ra (fun xa => .next (s.setCf (cmpValFlag xa imm)).advance)

end Sys2Proof.Machine
end

