-- ==== Sys2Proof/Machine/Control.lean ====
section
/-!
DEFINITION. The seven jumps, `label` and `halt` (`spec/44_control.md` R76 to R86).
-/

namespace Sys2Proof.Machine

/-- `jump imm` (R77). -/
def execJump (imm : Word) (s : State) : Result := jumpTo s imm

/-- `jeq imm` (R79). -/
def execJeq (imm : Word) (s : State) : Result := condJump s s.cf.isEq imm

/-- `jne imm` (R80). -/
def execJne (imm : Word) (s : State) : Result := condJump s s.cf.isNe imm

/-- `jgr imm` (R81). -/
def execJgr (imm : Word) (s : State) : Result := condJump s s.cf.isGr imm

/-- `jge imm` (R82). -/
def execJge (imm : Word) (s : State) : Result := condJump s s.cf.isGe imm

/-- `jle imm` (R83). -/
def execJle (imm : Word) (s : State) : Result := condJump s s.cf.isLe imm

/-- `jls imm` (R84). -/
def execJls (imm : Word) (s : State) : Result := condJump s s.cf.isLs imm

/-- `label` (R85): its only effect is to advance `ip`. -/
def execLabel (s : State) : Result := .next s.advance

/-- `halt` (R86): `halted <- 1`, and `ip` is not changed. The next step of the run loop ends the run (R74). -/
def execHalt (s : State) : Result := .next s.setHalted

end Sys2Proof.Machine
end

