-- ==== Sys2Proof/Machine/Output.lean ====
section
/-!
DEFINITION. The two instructions that write `out` (`spec/45_output.md`).
-/

namespace Sys2Proof.Machine

/-- `peek` (R88): the top of the stack is copied, not popped. -/
def execPeek (s : State) : Result := withTop s (fun v => .next (s.setOut v).advance)

/-- `return ra` (R89): it neither halts nor transfers control. -/
def execReturn (ra : Reg) (s : State) : Result := withReg s ra (fun x => .next (s.setOut x).advance)

end Sys2Proof.Machine
end

