-- ==== Sys2Proof/Machine/Register.lean ====
section
/-!
DEFINITION. The seven instructions that target a general register (`spec/42_register.md`).
-/

namespace Sys2Proof.Machine

/-- `move imm, ra` (R64). -/
def execMove (imm : Word) (ra : Reg) (s : State) : Result :=
  withReg s ra (fun _ => .next (s.setReg ra imm).advance)

/-- `load ra` (R65). -/
def execLoad (ra : Reg) (s : State) : Result :=
  withReg s ra (fun _ => withTop s (fun v => .next ((s.setReg ra v).setSize (s.size - 1)).advance))

/-- `unload ra` (R66). -/
def execUnload (ra : Reg) (s : State) : Result :=
  withReg s ra (fun x => pushValue s x)

/-- `append ra` (R67). -/
def execAppend (ra : Reg) (s : State) : Result :=
  withReg s ra (fun x => withTop s (fun v => .next ((s.setReg ra (aluAdd x v)).setSize (s.size - 1)).advance))

/-- `append_val imm, ra` (R68). -/
def execAppendVal (imm : Word) (ra : Reg) (s : State) : Result :=
  withReg s ra (fun x => .next (s.setReg ra (aluAdd x imm)).advance)

/-- `decrement ra` (R69): register minus popped value. -/
def execDecrement (ra : Reg) (s : State) : Result :=
  withReg s ra (fun x => withTop s (fun v => .next ((s.setReg ra (aluSub x v)).setSize (s.size - 1)).advance))

/-- `decrement_val imm, ra` (R70). -/
def execDecrementVal (imm : Word) (ra : Reg) (s : State) : Result :=
  withReg s ra (fun x => .next (s.setReg ra (aluSub x imm)).advance)

end Sys2Proof.Machine
end

