-- ==== Sys2Proof/Machine/Stack.lean ====
section
/-!
DEFINITION. The stack instructions `push` and `pop` (`spec/40_stack.md`).
-/

namespace Sys2Proof.Machine

/-- `push imm` (R56). -/
def execPush (imm : Word) (s : State) : Result := pushValue s imm

/-- `pop` (R57): the slot is not cleared (`spec/20_memory.md` R32). -/
def execPop (s : State) : Result :=
  if s.size = 0 then .next (s.raise .stackEmpty)
  else .next (s.setSize (s.size - 1)).advance

end Sys2Proof.Machine
end

