-- ==== Sys2Proof/Machine/Dispatch.lean ====
section
/-!
DEFINITION. The dispatch multiplexer (`spec/30_encoding.md` R55): one arm per instruction, each one call of its meaning.
-/

namespace Sys2Proof.Machine

def exec (i : Instr) (s : State) : Host.Outcome State Fault Refusal :=
  match i with
  | .push imm => Sys2Proof.Machine.execPush imm s
  | .pop => Sys2Proof.Machine.execPop s
  | .plus => Sys2Proof.Machine.execPlus s
  | .minus => Sys2Proof.Machine.execMinus s
  | .mult => Sys2Proof.Machine.execMult s
  | .div => Sys2Proof.Machine.execDiv s
  | .move imm ra => Sys2Proof.Machine.execMove imm ra s
  | .load ra => Sys2Proof.Machine.execLoad ra s
  | .unload ra => Sys2Proof.Machine.execUnload ra s
  | .append ra => Sys2Proof.Machine.execAppend ra s
  | .appendVal imm ra => Sys2Proof.Machine.execAppendVal imm ra s
  | .decrement ra => Sys2Proof.Machine.execDecrement ra s
  | .decrementVal imm ra => Sys2Proof.Machine.execDecrementVal imm ra s
  | .cmp ra rb => Sys2Proof.Machine.execCmp ra rb s
  | .cmpVal imm ra => Sys2Proof.Machine.execCmpVal imm ra s
  | .jump imm => Sys2Proof.Machine.execJump imm s
  | .jeq imm => Sys2Proof.Machine.execJeq imm s
  | .jne imm => Sys2Proof.Machine.execJne imm s
  | .jgr imm => Sys2Proof.Machine.execJgr imm s
  | .jge imm => Sys2Proof.Machine.execJge imm s
  | .jle imm => Sys2Proof.Machine.execJle imm s
  | .jls imm => Sys2Proof.Machine.execJls imm s
  | .label => Sys2Proof.Machine.execLabel s
  | .halt => Sys2Proof.Machine.execHalt s
  | .peek => Sys2Proof.Machine.execPeek s
  | .returnReg ra => Sys2Proof.Machine.execReturn ra s

end Sys2Proof.Machine
end

