-- ==== Sys2Proof/Machine/RunLoop.lean ====
section
/-!
DEFINITION. The sequencer: one pass of the run loop (`spec/44_control.md` R74), the reset and START events
(`spec/70_reset_and_hazards.md` R111, R112), the pre-flight check (`spec/60_exceptions.md` R97), and what one clock edge
does, with the precedence of the events (R115).
-/

namespace Sys2Proof.Machine

/-- One pass of the run loop of an active core (R74), its three tests in the spec's order (`spec/60_exceptions.md` R100). -/
def runStep (s : State) : Result :=
  if s.halted then .next s.endRun
  else
    match s.fetch with
    | none => .next (s.raise .invalidMemoryAccess)
    | some w =>
      match decode s.nreg w with
      | .error _ => .next (s.raise .unknownOperation)
      | .ok i => exec i s

/-- Reset, the source's `create` (R111): every register at its reset value (`spec/10_state.md` R25), `C` sampled from
`cap`, the slots unspecified again. -/
def resetCore (s : State) : Result :=
  if s.pins.cap.toNat = 0 then .refused .resetWithZeroCapacity
  else .next (State.afterReset s.nreg s.preflight s.pins.cap.toNat s.pins (s.resetCount + 1))

/-- Some word of the program has the opcode number of `halt` (`spec/60_exceptions.md` R97). -/
def hasHalt (program : List IWord) : Bool := program.any (fun w => opField w == 0x18)

/-- What START writes (R112). Registers, `cf`, the stack with its size and `halted` carry over. -/
def State.beginRun (s : State) : State :=
  { s with ip := 0, err := .noError, out := s.pins.outInit, active := true }

/-- START, the source's `execute` (R112), with the pre-flight check when PREFLIGHT is on (R97). -/
def startRun (s : State) : Result :=
  if s.progLen ≥ 2 ^ 63 then .refused .programTooLong
  else if s.preflight && !hasHalt s.pins.program then .next (s.beginRun.raise .programWithoutHalt)
  else .next s.beginRun

/-- One clock edge. Reset wins over everything, START is ignored while active (R115), and an idle core holds its state
(`spec/60_exceptions.md` R110; log entry 16). -/
def clockEdge (s : State) : Result :=
  if s.pins.rst then resetCore s
  else if s.active then runStep s
  else if s.pins.start then startRun s
  else .next s

/-- The state with `w` placed where the run loop fetches next, and with all that it takes for the next step to execute
it: no reset asserted, a run in progress, not halted (log entry 7). -/
def State.withInstruction (s : State) (w : IWord) : State :=
  { s with
    halted := false
    active := true
    pins := { s.pins with rst := false, program := placeWord s.pins.program s.ip.toNat w } }

end Sys2Proof.Machine
end

