-- ==== Sys2Proof/Machine/Step.lean ====
section
/-!
DEFINITION. The step of the machine, one clock edge (`spec/00_scope.md` R9, `spec/10_state.md` R24), and the placing of an
instruction where it fetches.
-/

namespace Sys2Proof.Machine

/-- One step of the core: one clock edge. -/
def step (s : State) : Host.Outcome State Fault Refusal := clockEdge s

/-- `s` with the instruction word `w`, numbered as spec/opcode_table.json numbers its bits, stored at index `ip` of the
program of a run in progress (log entry 7). -/
def State.withFetchWord (s : State) (nbits w : Nat) : State := s.withInstruction (tableWord nbits w)

end Sys2Proof.Machine
end

