-- ==== Sys2Proof/Machine/Ports.lean ====
section
/-!
DEFINITION. The output ports (`spec/10_state.md` R24), which only read the state: the result of a run
(`spec/70_reset_and_hazards.md` R119) and the debug views (`spec/60_exceptions.md` R109).
-/

namespace Sys2Proof.Machine

/-- The codes held in `err` (`spec/60_exceptions.md` R90). -/
def ErrorCode.code : ErrorCode → BitVec 4
  | .noError => 0
  | .stackOverflow => 1
  | .stackUnderflow => 2
  | .stackEmpty => 3
  | .invalidJumpAddress => 4
  | .invalidMemoryAccess => 5
  | .programWithoutHalt => 6
  | .divisionByZero => 7
  | .unknownOperation => 8

/-- `fetch_idx`, equal to `ip` (R24). -/
def State.fetchIdxPort (s : State) : BitVec 64 := s.ip

/-- `out` (R24). -/
def State.outPort (s : State) : Word := s.out

/-- `halted` (R24). -/
def State.haltedPort (s : State) : BitVec 1 := BitVec.ofBool s.halted

/-- `err` (R24). -/
def State.errPort (s : State) : BitVec 4 := s.err.code

/-- `active` (R24). -/
def State.activePort (s : State) : BitVec 1 := BitVec.ofBool s.active

/-- The input port `prog_len`, `N` (R24; log entry 15). -/
def State.progLenPort (s : State) : BitVec 64 := BitVec.ofNat 64 s.progLen

/-- The input port `instr`, `Program[fetch_idx]`; no value when `ip >= N`, where the core ignores it (R24). -/
def State.instrPort (s : State) : Option IWord := s.fetch

/-- `dbg_reg_val` for an index on `dbg_reg_idx`; no value at NREG and above, where the spec gives none (log entry 17). -/
def State.dbgReg (s : State) (i : BitVec 3) : Option Word := s.regs[i.toNat]?

/-- `dbg_cf` (R24, R16). -/
def State.dbgCf (s : State) : BitVec 2 := s.cf.bits

/-- `dbg_size` (R24), the low 64 bits of `S` (log entry 18). -/
def State.dbgSize (s : State) : BitVec 64 := BitVec.ofNat 64 s.size

/-- `dbg_stk_val` for an index on `dbg_stk_idx`: the slot when `i < S`, else unspecified, no value (R109; log entry 17). -/
def State.dbgStk (s : State) (i : BitVec 64) : Option Word :=
  if i.toNat < s.size then some (s.slot i.toNat) else none

/-- The result of the latest run, `(out, err)`, once that run is over (`spec/70_reset_and_hazards.md` R119). There is none
while a run is active, and none from a reset to the end of the next run (R120, abandon). A run ends only with `halted = 1`
or an error (`spec/44_control.md` R75), and a reset clears both `halted` and `err`, so an idle core with neither has made
no run since its reset (log entry 20). -/
def State.runResult (s : State) : Option (Word × ErrorCode) :=
  if s.active = true ∨ (s.halted = false ∧ s.err = .noError) then none else some (s.out, s.err)

end Sys2Proof.Machine
end

