-- ==== Sys2Proof/Safety.lean ====
section
/-!
DEFINITION. What counts as a sound state, in the terms the claims use, and the spec's own tables about all
instructions: which registers each writes (`spec/10_state.md` R11), how each changes `S` (R21), which errors each can
raise (`spec/60_exceptions.md` R90), and which bits of the word each format uses (`spec/30_encoding.md` R46).
-/

namespace Sys2Proof

/-- The bits of the word that an instruction's format uses (`spec/30_encoding.md` R46). -/
def Instr.usedBits : Instr → IWord
  | .push _ => 0xFF00_FFFFFFFFFFFFFFFF
  | .pop => 0xFF00_0000000000000000
  | .plus => 0xFF00_0000000000000000
  | .minus => 0xFF00_0000000000000000
  | .mult => 0xFF00_0000000000000000
  | .div => 0xFF00_0000000000000000
  | .move _ _ => 0xFFF0_FFFFFFFFFFFFFFFF
  | .load _ => 0xFFF0_0000000000000000
  | .unload _ => 0xFFF0_0000000000000000
  | .append _ => 0xFFF0_0000000000000000
  | .appendVal _ _ => 0xFFF0_FFFFFFFFFFFFFFFF
  | .decrement _ => 0xFFF0_0000000000000000
  | .decrementVal _ _ => 0xFFF0_FFFFFFFFFFFFFFFF
  | .cmp _ _ => 0xFFFF_0000000000000000
  | .cmpVal _ _ => 0xFFF0_FFFFFFFFFFFFFFFF
  | .jump _ => 0xFF00_FFFFFFFFFFFFFFFF
  | .jeq _ => 0xFF00_FFFFFFFFFFFFFFFF
  | .jne _ => 0xFF00_FFFFFFFFFFFFFFFF
  | .jgr _ => 0xFF00_FFFFFFFFFFFFFFFF
  | .jge _ => 0xFF00_FFFFFFFFFFFFFFFF
  | .jle _ => 0xFF00_FFFFFFFFFFFFFFFF
  | .jls _ => 0xFF00_FFFFFFFFFFFFFFFF
  | .label => 0xFF00_0000000000000000
  | .halt => 0xFF00_0000000000000000
  | .peek => 0xFF00_0000000000000000
  | .returnReg _ => 0xFFF0_0000000000000000

/-- The registers an instruction writes (`spec/10_state.md` R11). -/
def Instr.writtenRegs : Instr → List Reg
  | .push _ => []
  | .pop => []
  | .plus => []
  | .minus => []
  | .mult => []
  | .div => []
  | .move _ ra => [ra]
  | .load ra => [ra]
  | .unload _ => []
  | .append ra => [ra]
  | .appendVal _ ra => [ra]
  | .decrement ra => [ra]
  | .decrementVal _ ra => [ra]
  | .cmp _ _ => []
  | .cmpVal _ _ => []
  | .jump _ => []
  | .jeq _ => []
  | .jne _ => []
  | .jgr _ => []
  | .jge _ => []
  | .jle _ => []
  | .jls _ => []
  | .label => []
  | .halt => []
  | .peek => []
  | .returnReg _ => []

/-- `S` after an instruction that completes without error, from `S` before it (`spec/10_state.md` R21): +1 for
`push unload`, -1 for `pop load append decrement plus minus mult div`, unchanged for every other opcode. -/
def Instr.sizeAfter : Instr → Nat → Nat
  | .push _, n => n + 1
  | .pop, n => n - 1
  | .plus, n => n - 1
  | .minus, n => n - 1
  | .mult, n => n - 1
  | .div, n => n - 1
  | .move _ _, n => n
  | .load _, n => n - 1
  | .unload _, n => n + 1
  | .append _, n => n - 1
  | .appendVal _ _, n => n
  | .decrement _, n => n - 1
  | .decrementVal _ _, n => n
  | .cmp _ _, n => n
  | .cmpVal _ _, n => n
  | .jump _, n => n
  | .jeq _, n => n
  | .jne _, n => n
  | .jgr _, n => n
  | .jge _, n => n
  | .jle _, n => n
  | .jls _, n => n
  | .label, n => n
  | .halt, n => n
  | .peek, n => n
  | .returnReg _, n => n

/-- The six instructions that read the compare flag (`spec/10_state.md` R16). -/
def Instr.isConditionalJump : Instr → Bool
  | .jeq _ | .jne _ | .jgr _ | .jge _ | .jle _ | .jls _ => true
  | .push _ | .pop | .plus | .minus | .mult | .div | .move _ _ | .load _ | .unload _ | .append _ | .appendVal _ _
  | .decrement _ | .decrementVal _ _ | .cmp _ _ | .cmpVal _ _ | .jump _ | .label | .halt | .peek | .returnReg _ => false

/-- The two instructions that write the compare flag (`spec/10_state.md` R16). -/
def Instr.isCompare : Instr → Bool
  | .cmp _ _ | .cmpVal _ _ => true
  | .push _ | .pop | .plus | .minus | .mult | .div | .move _ _ | .load _ | .unload _ | .append _ | .appendVal _ _
  | .decrement _ | .decrementVal _ _ | .jump _ | .jeq _ | .jne _ | .jgr _ | .jge _ | .jle _ | .jls _
  | .label | .halt | .peek | .returnReg _ => false

/-- The two instructions that write the output (`spec/10_state.md` R19). -/
def Instr.isOutput : Instr → Bool
  | .peek | .returnReg _ => true
  | .push _ | .pop | .plus | .minus | .mult | .div | .move _ _ | .load _ | .unload _ | .append _ | .appendVal _ _
  | .decrement _ | .decrementVal _ _ | .cmp _ _ | .cmpVal _ _ | .jump _ | .jeq _ | .jne _ | .jgr _ | .jge _ | .jle _
  | .jls _ | .label | .halt => false

namespace Machine

/-- The errors an instruction that its core can decode may raise (`spec/60_exceptions.md` R90). -/
def mayRaise : Instr → List ErrorCode
  | .push _ => [.stackOverflow]
  | .pop => [.stackEmpty]
  | .plus => [.stackUnderflow]
  | .minus => [.stackUnderflow]
  | .mult => [.stackUnderflow]
  | .div => [.stackUnderflow, .divisionByZero]
  | .move _ _ => []
  | .load _ => [.stackEmpty]
  | .unload _ => [.stackOverflow]
  | .append _ => [.stackEmpty]
  | .appendVal _ _ => []
  | .decrement _ => [.stackEmpty]
  | .decrementVal _ _ => []
  | .cmp _ _ => []
  | .cmpVal _ _ => []
  | .jump _ => [.invalidJumpAddress]
  | .jeq _ => [.invalidJumpAddress]
  | .jne _ => [.invalidJumpAddress]
  | .jgr _ => [.invalidJumpAddress]
  | .jge _ => [.invalidJumpAddress]
  | .jle _ => [.invalidJumpAddress]
  | .jls _ => [.invalidJumpAddress]
  | .label => []
  | .halt => []
  | .peek => [.stackEmpty]
  | .returnReg _ => []

/-- Where `ip` stands after an instruction at `ip` that completes without error, from the flag it reads
(`spec/10_state.md` R14). -/
def ipAfter (cf : CompareFlag) (ip : BitVec 64) : Instr → BitVec 64
  | .push _ => ip + 1
  | .pop => ip + 1
  | .plus => ip + 1
  | .minus => ip + 1
  | .mult => ip + 1
  | .div => ip + 1
  | .move _ _ => ip + 1
  | .load _ => ip + 1
  | .unload _ => ip + 1
  | .append _ => ip + 1
  | .appendVal _ _ => ip + 1
  | .decrement _ => ip + 1
  | .decrementVal _ _ => ip + 1
  | .cmp _ _ => ip + 1
  | .cmpVal _ _ => ip + 1
  | .jump imm => imm
  | .jeq imm => if cf = .zero then imm else ip + 1
  | .jne imm => if cf = .zero then ip + 1 else imm
  | .jgr imm => if cf = .plusOne then imm else ip + 1
  | .jge imm => if cf = .minusOne then ip + 1 else imm
  | .jle imm => if cf = .plusOne then ip + 1 else imm
  | .jls imm => if cf = .minusOne then imm else ip + 1
  | .label => ip + 1
  | .halt => ip
  | .peek => ip + 1
  | .returnReg _ => ip + 1

/-- The invariant of the core (`spec/10_state.md` R26, R22, R15; `spec/20_memory.md` R32), with the ranges of the
parameters (`spec/00_scope.md` R5). -/
structure State.Inv (s : State) : Prop where
  /-- NREG is in 4..8 (R5). -/
  registers : WellFormedRegisterCount s.nreg
  /-- `C >= 1` (R21). -/
  capacity : WellFormedCapacity s.cap
  /-- `S <= C` (R26 (a)). -/
  size_le : s.size ≤ s.cap
  /-- The stack memory has its canonical form. -/
  slots_wf : s.slots.wf
  /-- Only slots `0 .. C-1` exist (R29). -/
  slots_lt : ∀ e ∈ s.slots, e.1 < s.cap
  /-- Every slot below `S` was written (R32). -/
  written : ∀ i < s.size, (s.slots.read i).isSome
  /-- `0 <= ip <= N` during a run (R26 (f)). -/
  ip_le : s.active = true → s.ip.toNat ≤ s.progLen
  /-- `N <= 2^63 - 1` during a run (R5). -/
  program : s.active = true → WellFormedProgram s.pins.program
  /-- `err != 0` implies `active = 0` (R26 (g)). -/
  err_idle : s.err ≠ .noError → s.active = false

/-- What the host may not do (`spec/70_reset_and_hazards.md` R120, `spec/93_implementation_defined.md` U15, U21): assert
reset with `cap = 0`, or START with a program of `2^63` words or more. -/
structure State.HostLegal (s : State) : Prop where
  /-- `cap >= 1` at a reset. -/
  cap_pos : s.pins.rst = true → s.pins.cap ≠ 0
  /-- `N <= 2^63 - 1` at a START. -/
  program : s.pins.start = true → WellFormedProgram s.pins.program

/-- Two states that differ at most in stack slots at or above `S`, the slots that no instruction can read
(`spec/20_memory.md` R32). -/
def State.SameButStale (s t : State) : Prop :=
  t = { s with slots := t.slots } ∧ ∀ i < s.size, t.slot i = s.slot i

/-- Two outcomes that stop alike or go on to states that differ at most in slots at or above `S`. -/
def SameOutcomeButStale : Result → Result → Prop
  | .next s, .next t => s.SameButStale t
  | .fault e, .fault f => e = f
  | .refused e, .refused f => e = f
  | _, _ => False

/-- The instruction a step of `s` would execute: no reset asserted, a run in progress, not halted, and the word at `ip`
decodes to it (`spec/44_control.md` R74). -/
def State.AboutToRun (s : State) (i : Instr) : Prop :=
  s.pins.rst = false ∧ s.active = true ∧ s.halted = false ∧
    ∃ w, s.pins.program[s.ip.toNat]? = some w ∧ decode s.nreg w = .ok i

/-- The core is not both active and halted, or `ip` is 0 or the index of a `halt`: where a run that ends in success stands
(`spec/70_reset_and_hazards.md` R119). -/
def State.StandsAtItsHalt (s : State) : Prop :=
  s.active = true → s.halted = true →
    s.ip = 0 ∨ ∃ w, s.pins.program[s.ip.toNat]? = some w ∧ decode s.nreg w = .ok .halt

/-- `push` of each value in turn, stopping at the first outcome that is no next state. -/
def pushAll : List Word → State → Result
  | [], s => .next s
  | v :: vs, s =>
    match exec (.push v) s with
    | .next t => pushAll vs t
    | .fault e => .fault e
    | .refused e => .refused e

/-- `i` takes the two top slots `a` (second from top) and `b` (top) and leaves `f a b` in the place of `a`, `S` one less
and every other slot and all the rest of the state as it was, `ip` advanced; with fewer than two values on the stack it
raises StackUnderflow (`spec/41_arith.md` R58). -/
def ReplacesTopTwo (i : Instr) (f : Word → Word → Word) : Prop :=
  ∀ s : State, s.size ≤ s.cap →
    (2 ≤ s.size → ∃ t, exec i s = .next t ∧
      t = { s with slots := t.slots, size := s.size - 1, ip := s.ip + 1 } ∧
      ∀ j, t.slot j = if j = s.size - 2 then f (s.slot (s.size - 2)) (s.slot (s.size - 1)) else s.slot j) ∧
    (s.size < 2 → exec i s = .next { s with err := .stackUnderflow, active := false })

/-- `i` pops the top of the stack into a function of it and of register `r`, and nothing else changes but `ip`, which
advances; on an empty stack it raises StackEmpty and the register keeps its value. -/
def PopsIntoRegister (i : Instr) (r : Reg) (f : Word → Word → Word) : Prop :=
  ∀ (s : State) (x : Word), s.reg? r = some x → s.size ≤ s.cap →
    (0 < s.size → ∃ t, exec i s = .next t ∧
      t = { s with regs := t.regs, size := s.size - 1, ip := s.ip + 1 } ∧ t.nreg = s.nreg ∧
      ∀ q, t.reg? q = if q = r then some (f x (s.slot (s.size - 1))) else s.reg? q) ∧
    (s.size = 0 → exec i s = .next { s with err := .stackEmpty, active := false })

/-- `i` writes a function of register `r` into it, and nothing else changes but `ip`, which advances. It never fails. -/
def UpdatesRegister (i : Instr) (r : Reg) (f : Word → Word) : Prop :=
  ∀ (s : State) (x : Word), s.reg? r = some x →
    ∃ t, exec i s = .next t ∧ t = { s with regs := t.regs, ip := s.ip + 1 } ∧ t.nreg = s.nreg ∧
      ∀ q, t.reg? q = if q = r then some (f x) else s.reg? q

/-- `i` goes to index `imm` when `taken` of the flag holds, raising InvalidJumpAddress if the target is outside
`0 .. N-1`, and advances `ip` without examining the target when it does not (`spec/44_control.md` R76, R78). -/
def JumpsWhen (i : Instr) (imm : Word) (taken : Int → Prop) : Prop :=
  ∀ s : State,
    (taken s.cf.toInt → 0 ≤ imm.toInt → imm.toInt < s.progLen →
      ∃ t, exec i s = .next t ∧ t = { s with ip := t.ip } ∧ (t.ip.toNat : Int) = imm.toInt) ∧
    (taken s.cf.toInt → (imm.toInt < 0 ∨ s.progLen ≤ imm.toInt) →
      exec i s = .next { s with err := .invalidJumpAddress, active := false }) ∧
    (¬ taken s.cf.toInt → exec i s = .next { s with ip := s.ip + 1 })

end Machine

end Sys2Proof
end

