-- ==== Sys2Proof/Certificates/Slice0/Obligations.lean ====
section
/-!
DEFINITION. The statements for the provers, each a `def Obligations.<Name> : Prop`. Words are written out from the
encoding tables of spec/30_encoding.md. A record update on the right of an equation is a frame: every field it does not
name is unchanged. A clause of the form `t = { s with slots := t.slots, … }` followed by what every slot reads as is the
frame of an instruction that stores to the stack. "Decision D<n>" names the spec's own decision (spec/92_eei_decisions.md)
that a clause follows.
-/

open Sys2Proof Sys2Proof.Machine

/-! ### Encoding (spec/30_encoding.md) -/

/-- Decoding the canonical word of a well-formed instruction gives the instruction back, whatever NREG. -/
def Obligations.DecodeEncodeRoundTrip : Prop :=
  ∀ (nreg : Nat) (i : Instr), WellFormed nreg i → decode nreg (encode i) = .ok i

/-- R50: the canonical word of what a word decodes to is that word with every unused field zero. -/
def Obligations.EncodeOfDecodedIsCanonicalWord : Prop :=
  ∀ (nreg : Nat) (w : IWord) (i : Instr), decode nreg w = .ok i → WellFormed nreg i ∧ encode i = w &&& i.usedBits

/-- R50: two words that agree on the fields the format uses decode alike. -/
def Obligations.UnusedFieldsAreIgnored : Prop :=
  ∀ (nreg : Nat) (w w' : IWord) (i : Instr),
    decode nreg w = .ok i → w' &&& i.usedBits = w &&& i.usedBits → decode nreg w' = .ok i

/-- R51, R48: the words that are Unknown are exactly those whose opcode number is not in 0x01 .. 0x1A and those whose
used register field is NREG or more (0x07 .. 0x0F and 0x1A use `ra`, 0x0E uses `rb` too). -/
def Obligations.UnknownWordsAreExactlyTheIllegalOnes : Prop :=
  ∀ (nreg : Nat) (w : IWord), nreg ≤ 8 →
    ((∃ e, decode nreg w = .error e) ↔
      (w.extractLsb' 72 8).toNat = 0x00 ∨ 0x1B ≤ (w.extractLsb' 72 8).toNat ∨
      ((0x07 ≤ (w.extractLsb' 72 8).toNat ∧ (w.extractLsb' 72 8).toNat ≤ 0x0F ∨ (w.extractLsb' 72 8).toNat = 0x1A) ∧
        nreg ≤ (w.extractLsb' 68 4).toNat) ∨
      ((w.extractLsb' 72 8).toNat = 0x0E ∧ nreg ≤ (w.extractLsb' 64 4).toNat))

/-- Words written out from the encoding tables decode to the instruction they stand for, one of each family. -/
def Obligations.WrittenWordsDecode : Prop :=
  decode 4 0x0100_0000000000000002 = .ok (.push 2) ∧
  decode 4 0x02FF_123456789ABCDEF0 = .ok .pop ∧
  decode 4 0x0600_0000000000000000 = .ok .div ∧
  decode 4 0x0720_0000000000000007 = .ok (.move 7 .RC) ∧
  decode 4 0x0E01_0000000000000000 = .ok (.cmp .RA .RB) ∧
  decode 4 0x1600_0000000000000063 = .ok (.jls 99) ∧
  decode 4 0x1A30_0000000000000000 = .ok (.returnReg .RD) ∧
  decode 8 0x0840_0000000000000000 = .ok (.load .RE) ∧
  decode 4 0x0840_0000000000000000 = .error (.noSuchRegister 4)

/-! ### The sequencer (spec/44_control.md, spec/70_reset_and_hazards.md) -/

/-- A step runs the decoded instruction, and adds nothing around it; the instruction is well formed. -/
def Obligations.StepRunsTheDecodedInstruction : Prop :=
  ∀ (s : State) (w : IWord) (i : Instr),
    s.pins.rst = false → s.active = true → s.halted = false →
    s.pins.program[s.ip.toNat]? = some w → decode s.nreg w = .ok i →
    WellFormed s.nreg i ∧ step s = exec i s

/-- R74: one pass of the run loop, its tests in order: halted, the bounds of `ip`, the opcode. -/
def Obligations.RunLoopTestsInOrder : Prop :=
  ∀ s : State, s.pins.rst = false → s.active = true →
    (s.halted = true → step s = .next { s with active := false }) ∧
    (s.halted = false → s.progLen ≤ s.ip.toNat →
      step s = .next { s with err := .invalidMemoryAccess, active := false }) ∧
    (s.halted = false → ∀ w, s.pins.program[s.ip.toNat]? = some w →
      (∀ e, decode s.nreg w = .error e → step s = .next { s with err := .unknownOperation, active := false }) ∧
      (∀ i, decode s.nreg w = .ok i → step s = exec i s))

/-- A core that is not active, with neither reset nor START asserted, holds its state. -/
def Obligations.IdleCoreHoldsItsState : Prop :=
  ∀ s : State, s.pins.rst = false → s.active = false → s.pins.start = false → step s = .next s

/-- A reset gives every register its reset value, whatever the state before (the table of 10_state.md section 7); NREG,
PREFLIGHT and the host's inputs are no registers and stay. That a step never changes an input is the model's choice (log
entry 5). Decisions D5, D18, D19. -/
def Obligations.ResetGivesTheResetValues : Prop :=
  ∀ s : State, s.pins.rst = true → s.pins.cap ≠ 0 →
    ∃ t, step s = .next t ∧
      (∀ r : Reg, r.index < s.nreg → t.reg? r = some 0) ∧ t.nreg = s.nreg ∧ t.cf = .zero ∧
      t.cap = s.pins.cap.toNat ∧ t.size = 0 ∧ t.ip = 0 ∧ t.halted = false ∧ t.out = 0 ∧ t.err = .noError ∧
      t.active = false ∧ t.preflight = s.preflight ∧ t.pins = s.pins

/-- The state `State.reset` holds the reset values of R25's table, `C` that of its own `cap` input. The value of that input
is the model's choice (log entries 1 and 6), and nothing here says what it is. -/
def Obligations.ResetStateHoldsTheResetValues : Prop :=
  (∀ r : Reg, r.index < State.reset.nreg → State.reset.reg? r = some 0) ∧ State.reset.cf = .zero ∧
  State.reset.cap = State.reset.pins.cap.toNat ∧ State.reset.size = 0 ∧ State.reset.ip = 0 ∧
  State.reset.halted = false ∧ State.reset.out = 0 ∧ State.reset.err = .noError ∧ State.reset.active = false

/-- R112, R97: START writes `ip`, `err`, `out` and `active` and nothing else; when PREFLIGHT is on and no word of the
program has the opcode number 0x18, it raises ProgramWithoutHalt instead of beginning the run. Decisions D12, D18, D19,
D29. -/
def Obligations.StartBeginsTheRun : Prop :=
  ∀ s : State, s.pins.rst = false → s.active = false → s.pins.start = true → s.progLen < 2 ^ 63 →
    ((s.preflight = false ∨ ∃ w ∈ s.pins.program, w.extractLsb' 72 8 = 0x18#8) →
      step s = .next { s with ip := 0, err := .noError, out := s.pins.outInit, active := true }) ∧
    (s.preflight = true → (∀ w ∈ s.pins.program, w.extractLsb' 72 8 ≠ 0x18#8) →
      step s = .next { s with ip := 0, err := .programWithoutHalt, out := s.pins.outInit, active := false })

/-- Reset wins over everything and ends a run, whatever `start` and `active` are; START is ignored while a run is active
(R115, decision D29). That the reset state lists no slot and counts the reset in `resetCount`, the model's own field, is
the model's choice (log entry 3), and so is that a step changes no input (log entry 5). -/
def Obligations.EventPrecedence : Prop :=
  (∀ s : State, s.pins.rst = true → s.pins.cap ≠ 0 →
    step s = .next (State.afterReset s.nreg s.preflight s.pins.cap.toNat s.pins (s.resetCount + 1))) ∧
  (∀ (s t : State) (b : Bool), s.pins.rst = false → s.active = true → step s = .next t →
    step { s with pins := { s.pins with start := b } } = .next { t with pins := { t.pins with start := b } })

/-- The model refuses what the spec puts outside itself: a reset with `cap = 0` (R21, U15) and a START with a program of
`2^63` words or more (U21). Log entry 8. -/
def Obligations.IllegalHostRequestsAreRefused : Prop :=
  (∀ s : State, s.pins.rst = true → s.pins.cap = 0 → step s = .refused .resetWithZeroCapacity) ∧
  (∀ s : State, s.pins.rst = false → s.active = false → s.pins.start = true → 2 ^ 63 ≤ s.progLen →
    step s = .refused .programTooLong)

/-- A START without a reset on a core that has halted ends at its first step, having executed nothing, unless the
pre-flight check fails it at once (consequence drawn in R114). -/
def Obligations.SecondRunOfAHaltedCoreExecutesNothing : Prop :=
  ∀ s : State, s.pins.rst = false → s.active = false → s.pins.start = true → s.progLen < 2 ^ 63 →
    (s.preflight = false ∨ ∃ w ∈ s.pins.program, w.extractLsb' 72 8 = 0x18#8) → s.halted = true →
    ∃ t, step s = .next t ∧ t.active = true ∧
      step t = .next { s with ip := 0, err := .noError, out := s.pins.outInit, active := false }

/-! ### Invariants and whole-machine rules (spec/10_state.md, spec/60_exceptions.md) -/

/-- The reset state meets the invariant. That its capacity is at least 1 rests on the model's choice of it (log entry 1). -/
def Obligations.ResetStateMeetsTheInvariant : Prop := State.reset.Inv

/-- Every step keeps the invariant: `S <= C`, the stack memory canonical and inside `0 .. C-1`, every slot below `S`
written, `ip <= N` during a run, an error only in an idle core, NREG in 4..8. -/
def Obligations.StepKeepsTheInvariant : Prop :=
  ∀ s t : State, s.Inv → step s = .next t → t.Inv

/-- In a state that meets the invariant, under a host that keeps its promises, no step faults or refuses. -/
def Obligations.SoundStatesNeverStop : Prop :=
  ∀ s : State, s.Inv → s.HostLegal → ∃ t, step s = .next t

/-- R17: `halted` is set only by `halt`, cleared only by reset, and read first by the run loop. -/
def Obligations.HaltedIsSetByHaltAndClearedByReset : Prop :=
  (∀ s t : State, step s = .next t → s.halted = true → t.halted = false → s.pins.rst = true) ∧
  (∀ s t : State, step s = .next t → s.halted = false → t.halted = true → s.AboutToRun .halt) ∧
  (∀ s : State, s.pins.rst = false → s.active = true → s.halted = true → step s = .next { s with active := false })

/-- Only a reset or one of the two compares changes `cf`. -/
def Obligations.CompareFlagIsWrittenOnlyByCompares : Prop :=
  ∀ s t : State, step s = .next t → t.cf ≠ s.cf → s.pins.rst = true ∨ ∃ i, s.AboutToRun i ∧ i.isCompare = true

/-- No instruction but the six conditional jumps depends on `cf`: with another flag before, every other instruction that
its core can decode does the same, leaving that flag unless it is a compare. -/
def Obligations.CompareFlagIsReadOnlyByConditionalJumps : Prop :=
  ∀ (i : Instr) (s t : State) (f : CompareFlag),
    WellFormed s.nreg i → i.isConditionalJump = false → exec i s = .next t →
    exec i { s with cf := f } = .next { t with cf := if i.isCompare = true then t.cf else f }

/-- Only a reset, START, `peek` or `return` changes `out`. -/
def Obligations.OutIsWrittenOnlyByStartPeekAndReturn : Prop :=
  ∀ s t : State, step s = .next t → t.out ≠ s.out →
    s.pins.rst = true ∨ (s.active = false ∧ s.pins.start = true ∧ t.out = s.pins.outInit) ∨
      ∃ i, s.AboutToRun i ∧ i.isOutput = true

/-- An instruction changes no register but those its row of R11's table says it writes, and never their number. -/
def Obligations.RegistersAreWrittenOnlyAsTabled : Prop :=
  ∀ (i : Instr) (s t : State), exec i s = .next t →
    t.nreg = s.nreg ∧ ∀ r : Reg, r ∉ i.writtenRegs → t.reg? r = s.reg? r

/-- No step changes NREG, PREFLIGHT or the program, and only a reset changes the capacity. That no step changes the other
inputs either, `rst`, `cap`, `start` and `out_init`, is the model's choice: the host drives them, and the model holds them
in `pins` (log entry 5, unsafe). -/
def Obligations.StepKeepsConfigurationAndProgram : Prop :=
  ∀ s t : State, step s = .next t →
    t.nreg = s.nreg ∧ t.preflight = s.preflight ∧ t.pins = s.pins ∧ (s.pins.rst = false → t.cap = s.cap)

/-- R91: a step of the run loop either goes on with `err` as it was, or raises an error, and then it changes `err` and
`active` and nothing else. Decision D9. -/
def Obligations.AnErrorChangesOnlyErrAndActive : Prop :=
  ∀ s t : State, s.pins.rst = false → s.active = true → s.halted = false → step s = .next t →
    (t.active = true ∧ t.err = s.err) ∨
    (∃ e, e ≠ .noError ∧ t = { s with err := e, active := false })

/-- An instruction its core can decode raises only the errors R90's table gives it. -/
def Obligations.OnlyTabledErrorsAreRaised : Prop :=
  ∀ (i : Instr) (s t : State), WellFormed s.nreg i → s.active = true → exec i s = .next t →
    (t.active = true ∧ t.err = s.err) ∨ (t.active = false ∧ t.err ∈ mayRaise i)

/-- R14: `ip` after an instruction is as the rule's table has it, the next index, the target of a taken jump, its own
index for `halt` and on an error (decision D9); START sets it to 0. -/
def Obligations.InstructionPointerMovesAsTabled : Prop :=
  (∀ (i : Instr) (s t : State), s.active = true → exec i s = .next t →
    (t.active = true → t.ip = ipAfter s.cf s.ip i) ∧ (t.active = false → t.ip = s.ip)) ∧
  (∀ s t : State, s.pins.rst = false → s.active = false → s.pins.start = true → step s = .next t → t.ip = 0)

/-- `S` after an instruction is as R21 lists it, and unchanged on an error; `C` never changes. -/
def Obligations.StackSizeMovesAsTabled : Prop :=
  ∀ (i : Instr) (s t : State), s.active = true → exec i s = .next t →
    t.cap = s.cap ∧ (t.active = true → t.size = i.sizeAfter s.size) ∧ (t.active = false → t.size = s.size)

/-- What stands in slots at or above `S` is unobservable: two states that differ in nothing else step alike, to states
that differ in nothing else. -/
def Obligations.StaleSlotsAreUnobservable : Prop :=
  ∀ s t : State, s.SameButStale t → SameOutcomeButStale (step s) (step t)

/-- The model's choice (log entry 10): `exec` of an instruction that names a register the core does not have raises
UnknownOperation, as the decoder does for its word. -/
def Obligations.AbsentRegisterRaisesUnknownOperation : Prop :=
  ∀ (i : Instr) (s : State), ¬ WellFormed s.nreg i →
    exec i s = .next { s with err := .unknownOperation, active := false }

/-- The ports show the tabled codes and no other: `err` the number of the error in R90's order (decision D17), `dbg_cf` the
flag's two's complement field (R16, decision D5), and `fetch_idx`, `out`, `halted` and `active` their registers (R24). -/
def Obligations.PortsShowOnlyLegalCodes : Prop :=
  ∀ s : State,
    (s.err = .noError → s.errPort = 0#4) ∧ (s.err = .stackOverflow → s.errPort = 1#4) ∧
    (s.err = .stackUnderflow → s.errPort = 2#4) ∧ (s.err = .stackEmpty → s.errPort = 3#4) ∧
    (s.err = .invalidJumpAddress → s.errPort = 4#4) ∧ (s.err = .invalidMemoryAccess → s.errPort = 5#4) ∧
    (s.err = .programWithoutHalt → s.errPort = 6#4) ∧ (s.err = .divisionByZero → s.errPort = 7#4) ∧
    (s.err = .unknownOperation → s.errPort = 8#4) ∧
    s.errPort.toNat ≤ 8 ∧ s.dbgCf ≠ 0b10#2 ∧
    (s.cf.toInt = -1 → s.dbgCf = 0b11#2) ∧ (s.cf.toInt = 0 → s.dbgCf = 0b00#2) ∧ (s.cf.toInt = 1 → s.dbgCf = 0b01#2) ∧
    s.fetchIdxPort = s.ip ∧ s.outPort = s.out ∧
    s.haltedPort = (if s.halted = true then 1#1 else 0#1) ∧ s.activePort = (if s.active = true then 1#1 else 0#1)

/-- The debug views return `x[i]`, and `stk[i]` for `i < S`. At the index of a register the core does not have, where both
sides have no value, that the view has none is the model's choice (log entry 17). -/
def Obligations.DebugViewsReadTheState : Prop :=
  ∀ s : State, (∀ r : Reg, s.dbgReg (BitVec.ofNat 3 r.index) = s.reg? r) ∧
    (∀ i : BitVec 64, i.toNat < s.size → s.dbgStk i = some (s.slot i.toNat))

/-! ### The end of a run (spec/70_reset_and_hazards.md R119, R120) -/

/-- A run has a result exactly from the step that ends it: none in the reset state, after any reset or while active; the
step that ends a run gives `out` and `err`, with `ip` where it stood, and is a success only with `halted = 1`; a START that
fails its pre-flight check gives ProgramWithoutHalt; an idle step keeps what there is. Log entry 20. -/
def Obligations.RunResultIsGivenWhenTheRunIsOver : Prop :=
  State.reset.runResult = none ∧
  (∀ s : State, s.active = true → s.runResult = none) ∧
  (∀ s t : State, s.pins.rst = true → step s = .next t → t.runResult = none) ∧
  (∀ s t : State, s.pins.rst = false → s.active = true → step s = .next t → t.active = false →
    t.runResult = some (s.out, t.err) ∧ t.ip = s.ip ∧ (t.err = .noError → s.halted = true ∧ t.halted = true)) ∧
  (∀ s t : State, s.pins.rst = false → s.active = false → s.pins.start = true → step s = .next t → t.active = false →
    t.runResult = some (s.pins.outInit, .programWithoutHalt)) ∧
  (∀ s t : State, s.pins.rst = false → s.active = false → s.pins.start = false → step s = .next t →
    t.runResult = s.runResult)

/-- A run that is about to end in success stands at a `halt`, or at index 0 if the core was halted already at START: so in
the reset state, and every step keeps it. -/
def Obligations.HaltedRunsStandAtAHalt : Prop :=
  State.reset.StandsAtItsHalt ∧
  ∀ s t : State, s.StandsAtItsHalt → step s = .next t → t.StandsAtItsHalt

/-! ### The ALU (spec/41_arith.md) -/

/-- Add, subtract and multiply are those of the 64-bit vectors, whether read as signed or unsigned; the quotient is
`sign a * sign b * floor(|a| / |b|)`, wrapped. Decisions D4, D6, D7, D8. -/
def Obligations.AluComputesWrappedResults : Prop :=
  ∀ a b : Word, aluAdd a b = a + b ∧ aluSub a b = a - b ∧ aluMul a b = a * b ∧
    (b ≠ 0 → aluDiv a b =
      BitVec.ofInt 64 (a.toInt.sign * b.toInt.sign * ((a.toInt.natAbs / b.toInt.natAbs : Nat) : Int)))

/-! ### Stack instructions (spec/40_stack.md) -/

/-- R56: `push imm`, word `0x0100_` and the immediate, appends the immediate; a full stack is StackOverflow and nothing
is written. -/
def Obligations.PushAppendsItsImmediate : Prop :=
  ∀ imm : Word, (∀ nreg, decode nreg (0x0100#16 ++ imm) = .ok (.push imm)) ∧
    ∀ s : State, s.size ≤ s.cap →
      (s.size < s.cap → ∃ t, exec (.push imm) s = .next t ∧
        t = { s with slots := t.slots, size := s.size + 1, ip := s.ip + 1 } ∧
        ∀ j, t.slot j = if j = s.size then imm else s.slot j) ∧
      (s.size = s.cap → exec (.push imm) s = .next { s with err := .stackOverflow, active := false })

/-- R57: `pop`, word `0x0200_…`, drops the top without clearing its slot; an empty stack is StackEmpty. -/
def Obligations.PopDropsTheTop : Prop :=
  (∀ nreg, decode nreg 0x0200_0000000000000000 = .ok .pop) ∧
  ∀ s : State,
    (0 < s.size → exec .pop s = .next { s with size := s.size - 1, ip := s.ip + 1 }) ∧
    (s.size = 0 → exec .pop s = .next { s with err := .stackEmpty, active := false })

/-- From an empty stack, pushing at most `C` values completes, with `S` their number and slot `k` the `k`-th of them; one
more push is StackOverflow with `S` still `C`. -/
def Obligations.PushingBeyondTheCapacityOverflows : Prop :=
  ∀ (vs : List Word) (s : State), s.size = 0 → vs.length ≤ s.cap →
    ∃ t, pushAll vs s = .next t ∧ t = { s with slots := t.slots, size := vs.length, ip := t.ip } ∧
      (∀ k (h : k < vs.length), t.slot k = vs[k]) ∧
      (vs.length = s.cap → ∀ v, exec (.push v) t = .next { t with err := .stackOverflow, active := false })

/-! ### Arithmetic instructions (spec/41_arith.md) -/

/-- R59, R60, R61: `plus`, `minus` and `mult` replace the two top slots by `second_from_top OP top`, modulo `2^64`; fewer
than two values is StackUnderflow. Decisions D6, D9. -/
def Obligations.PlusMinusMultReplaceTheTopTwo : Prop :=
  (∀ nreg, decode nreg 0x0300_0000000000000000 = .ok .plus) ∧ ReplacesTopTwo .plus (fun a b => a + b) ∧
  (∀ nreg, decode nreg 0x0400_0000000000000000 = .ok .minus) ∧ ReplacesTopTwo .minus (fun a b => a - b) ∧
  (∀ nreg, decode nreg 0x0500_0000000000000000 = .ok .mult) ∧ ReplacesTopTwo .mult (fun a b => a * b)

/-- R62: `div` replaces the two top slots by the quotient rounded toward zero; `S < 2` is StackUnderflow, checked first, and
a divisor 0 is DivisionByZero with the stack as it was. Decisions D7, D8, D9, D10. -/
def Obligations.DivReplacesTheTopTwo : Prop :=
  (∀ nreg, decode nreg 0x0600_0000000000000000 = .ok .div) ∧
  ∀ s : State, s.size ≤ s.cap →
    (2 ≤ s.size → s.slot (s.size - 1) ≠ 0 → ∃ t, exec .div s = .next t ∧
      t = { s with slots := t.slots, size := s.size - 1, ip := s.ip + 1 } ∧
      ∀ j, t.slot j =
        if j = s.size - 2 then BitVec.ofInt 64 ((s.slot (s.size - 2)).toInt.tdiv (s.slot (s.size - 1)).toInt)
        else s.slot j) ∧
    (s.size < 2 → exec .div s = .next { s with err := .stackUnderflow, active := false }) ∧
    (2 ≤ s.size → s.slot (s.size - 1) = 0 → exec .div s = .next { s with err := .divisionByZero, active := false })

/-! ### Register instructions (spec/42_register.md) -/

/-- R64, R68, R70: `move` assigns its immediate, `append_val` adds it and `decrement_val` subtracts it modulo `2^64`, in
the register named; none of them fails. Decision D6. -/
def Obligations.ImmediateRegisterInstructions : Prop :=
  ∀ (imm : Word) (r : Reg),
    (∀ nreg, r.index < nreg →
      decode nreg (0x07#8 ++ BitVec.ofNat 4 r.index ++ 0#4 ++ imm) = .ok (.move imm r) ∧
      decode nreg (0x0B#8 ++ BitVec.ofNat 4 r.index ++ 0#4 ++ imm) = .ok (.appendVal imm r) ∧
      decode nreg (0x0D#8 ++ BitVec.ofNat 4 r.index ++ 0#4 ++ imm) = .ok (.decrementVal imm r)) ∧
    UpdatesRegister (.move imm r) r (fun _ => imm) ∧
    UpdatesRegister (.appendVal imm r) r (fun x => x + imm) ∧
    UpdatesRegister (.decrementVal imm r) r (fun x => x - imm)

/-- R65: `load` pops the top of the stack into the register named; an empty stack is StackEmpty. -/
def Obligations.LoadPopsIntoARegister : Prop :=
  ∀ r : Reg,
    (∀ nreg, r.index < nreg → decode nreg (0x08#8 ++ BitVec.ofNat 4 r.index ++ 0#68) = .ok (.load r)) ∧
    PopsIntoRegister (.load r) r (fun _ v => v)

/-- R67, R69: `append` adds the popped top to the register named and `decrement` subtracts it, modulo `2^64`; an empty
stack is StackEmpty. Decisions D6, D9. -/
def Obligations.AppendAndDecrementPopIntoARegister : Prop :=
  ∀ r : Reg,
    (∀ nreg, r.index < nreg →
      decode nreg (0x0A#8 ++ BitVec.ofNat 4 r.index ++ 0#68) = .ok (.append r) ∧
      decode nreg (0x0C#8 ++ BitVec.ofNat 4 r.index ++ 0#68) = .ok (.decrement r)) ∧
    PopsIntoRegister (.append r) r (fun x v => x + v) ∧
    PopsIntoRegister (.decrement r) r (fun x v => x - v)

/-- R66: `unload` pushes the register's value and leaves the register; a full stack is StackOverflow. -/
def Obligations.UnloadPushesARegister : Prop :=
  ∀ r : Reg,
    (∀ nreg, r.index < nreg → decode nreg (0x09#8 ++ BitVec.ofNat 4 r.index ++ 0#68) = .ok (.unload r)) ∧
    ∀ (s : State) (x : Word), s.reg? r = some x → s.size ≤ s.cap →
      (s.size < s.cap → ∃ t, exec (.unload r) s = .next t ∧
        t = { s with slots := t.slots, size := s.size + 1, ip := s.ip + 1 } ∧
        ∀ j, t.slot j = if j = s.size then x else s.slot j) ∧
      (s.size = s.cap → exec (.unload r) s = .next { s with err := .stackOverflow, active := false })

/-- `unload ra` followed by `load ra` restores the state apart from the stale slot (R66, corner cases), with `ip` two
further. -/
def Obligations.UnloadThenLoadRestoresTheState : Prop :=
  ∀ (r : Reg) (s : State), r.index < s.nreg → s.size < s.cap →
    ∃ t, exec (.unload r) s = .next t ∧
      exec (.load r) t = .next { s with slots := t.slots, ip := s.ip + 1 + 1 } ∧
      ∀ j, j ≠ s.size → t.slot j = s.slot j

/-! ### Compare instructions (spec/43_compare.md) -/

/-- R72: `cmp ra, rb` writes -1 for greater, +1 for less, 0 for equal, read as signed, and changes nothing else but `ip`.
Decision D4. -/
def Obligations.CmpWritesTheInvertedFlag : Prop :=
  ∀ ra rb : Reg,
    (∀ nreg, ra.index < nreg → rb.index < nreg →
      decode nreg (0x0E#8 ++ BitVec.ofNat 4 ra.index ++ BitVec.ofNat 4 rb.index ++ 0#64) = .ok (.cmp ra rb)) ∧
    ∀ (s : State) (xa xb : Word), s.reg? ra = some xa → s.reg? rb = some xb →
      ∃ t, exec (.cmp ra rb) s = .next t ∧ t = { s with cf := t.cf, ip := s.ip + 1 } ∧
        (xb.toInt < xa.toInt → t.cf.toInt = -1) ∧ (xa.toInt < xb.toInt → t.cf.toInt = 1) ∧
        (xa = xb → t.cf.toInt = 0)

/-- R73: `cmp_val imm, ra` writes +1 for greater, -1 for less, 0 for equal, read as signed, and changes nothing else but
`ip`. Decision D4. -/
def Obligations.CmpValWritesTheFlag : Prop :=
  ∀ (imm : Word) (ra : Reg),
    (∀ nreg, ra.index < nreg → decode nreg (0x0F#8 ++ BitVec.ofNat 4 ra.index ++ 0#4 ++ imm) = .ok (.cmpVal imm ra)) ∧
    ∀ (s : State) (xa : Word), s.reg? ra = some xa →
      ∃ t, exec (.cmpVal imm ra) s = .next t ∧ t = { s with cf := t.cf, ip := s.ip + 1 } ∧
        (imm.toInt < xa.toInt → t.cf.toInt = 1) ∧ (xa.toInt < imm.toInt → t.cf.toInt = -1) ∧
        (xa = imm → t.cf.toInt = 0)

/-! ### Control-flow instructions (spec/44_control.md) -/

/-- R77: `jump imm` goes to the target when it is in `0 .. N-1`, else InvalidJumpAddress with `ip` unchanged. The bound is
the program's length, never the capacity. Decision D31. -/
def Obligations.JumpGoesToItsTarget : Prop :=
  ∀ imm : Word, (∀ nreg, decode nreg (0x1000#16 ++ imm) = .ok (.jump imm)) ∧
    JumpsWhen (.jump imm) imm (fun _ => True)

/-- R79 to R84: the six conditional jumps go to their target on their condition of the flag, with the same check as
`jump`, and advance `ip` without examining the target when it does not hold. Decision D11. -/
def Obligations.ConditionalJumpsFollowTheFlag : Prop :=
  ∀ imm : Word,
    (∀ nreg,
      decode nreg (0x1100#16 ++ imm) = .ok (.jeq imm) ∧ decode nreg (0x1200#16 ++ imm) = .ok (.jne imm) ∧
      decode nreg (0x1300#16 ++ imm) = .ok (.jgr imm) ∧ decode nreg (0x1400#16 ++ imm) = .ok (.jge imm) ∧
      decode nreg (0x1500#16 ++ imm) = .ok (.jle imm) ∧ decode nreg (0x1600#16 ++ imm) = .ok (.jls imm)) ∧
    JumpsWhen (.jeq imm) imm (fun cf => cf = 0) ∧ JumpsWhen (.jne imm) imm (fun cf => cf ≠ 0) ∧
    JumpsWhen (.jgr imm) imm (fun cf => cf = 1) ∧ JumpsWhen (.jge imm) imm (fun cf => 0 ≤ cf) ∧
    JumpsWhen (.jle imm) imm (fun cf => cf ≤ 0) ∧ JumpsWhen (.jls imm) imm (fun cf => cf = -1)

/-- R85: `label`, word `0x1700_…`, advances `ip` and has no other effect. -/
def Obligations.LabelOnlyAdvances : Prop :=
  (∀ nreg, decode nreg 0x1700_0000000000000000 = .ok .label) ∧
  ∀ s : State, exec .label s = .next { s with ip := s.ip + 1 }

/-- R86: `halt`, word `0x1800_…`, sets `halted` and nothing else, `ip` and `active` among what stays; the next step ends
the run with `err` as it was. -/
def Obligations.HaltEndsTheRunAtTheNextStep : Prop :=
  (∀ nreg, decode nreg 0x1800_0000000000000000 = .ok .halt) ∧
  ∀ s : State, exec .halt s = .next { s with halted := true } ∧
    (s.AboutToRun .halt → step s = .next { s with halted := true } ∧
      step { s with halted := true } = .next { s with halted := true, active := false })

/-! ### Output instructions (spec/45_output.md) -/

/-- R88: `peek`, word `0x1900_…`, copies the top of the stack to `out` without popping; an empty stack is StackEmpty and
`out` keeps its value. -/
def Obligations.PeekCopiesTheTopToOut : Prop :=
  (∀ nreg, decode nreg 0x1900_0000000000000000 = .ok .peek) ∧
  ∀ s : State, s.size ≤ s.cap →
    (0 < s.size → exec .peek s = .next { s with out := s.slot (s.size - 1), ip := s.ip + 1 }) ∧
    (s.size = 0 → exec .peek s = .next { s with err := .stackEmpty, active := false })

/-- R89: `return ra` copies the register to `out` and advances `ip`; it neither halts nor transfers control. Decision
D23. -/
def Obligations.ReturnCopiesARegisterToOut : Prop :=
  ∀ r : Reg,
    (∀ nreg, r.index < nreg → decode nreg (0x1A#8 ++ BitVec.ofNat 4 r.index ++ 0#68) = .ok (.returnReg r)) ∧
    ∀ (s : State) (x : Word), s.reg? r = some x →
      exec (.returnReg r) s = .next { s with out := x, ip := s.ip + 1 }
end

