-- ==== Sys2Proof/Laws/Decode.lean ====
section
/-!
SUPPORT. The fields of a packed word, and what decoding a register field can answer.
-/

namespace Sys2Proof

variable (op : BitVec 8) (ra rb : BitVec 4) (imm : Word)

/-- The opcode field of a packed word. -/
@[simp] theorem opField_packWord : opField (packWord op ra rb imm) = op := by
  unfold opField packWord
  ext i hi
  simp only [BitVec.getElem_extractLsb', BitVec.getLsbD_append]
  grind

/-- The first register field of a packed word. -/
@[simp] theorem raField_packWord : raField (packWord op ra rb imm) = ra := by
  unfold raField packWord
  ext i hi
  simp only [BitVec.getElem_extractLsb', BitVec.getLsbD_append]
  grind

/-- The second register field of a packed word. -/
@[simp] theorem rbField_packWord : rbField (packWord op ra rb imm) = rb := by
  unfold rbField packWord
  ext i hi
  simp only [BitVec.getElem_extractLsb', BitVec.getLsbD_append]
  grind

/-- The immediate field of a packed word. -/
@[simp] theorem immField_packWord : immField (packWord op ra rb imm) = imm := by
  unfold immField packWord
  ext i hi
  simp only [BitVec.getElem_extractLsb', BitVec.getLsbD_append]
  grind

/-- A register field decodes to a register exactly when it is that register's index and below NREG. -/
theorem decodeReg_eq_ok {nreg : Nat} {f : BitVec 4} {r : Reg} :
    decodeReg nreg f = .ok r ↔ f.toNat = r.index ∧ r.index < nreg := by
  unfold decodeReg
  generalize f.toNat = n
  constructor
  · intro h
    split at h
    · next q hq =>
      split at h
      · next hlt =>
        cases h
        refine ⟨?_, hlt⟩
        unfold regOfIndex at hq
        split at hq <;> cases hq <;> rfl
      · cases h
    · cases h
  · rintro ⟨rfl, hlt⟩
    cases r <;> simp_all [regOfIndex, Reg.index]

/-- A register's own field decodes to it, on a core that has it. -/
theorem decodeReg_regField {nreg : Nat} {r : Reg} (h : r.index < nreg) : decodeReg nreg (regField r) = .ok r :=
  decodeReg_eq_ok.mpr ⟨by cases r <;> rfl, h⟩

/-- Everything a format with one register can decode to. -/
theorem decodeWithRa_eq_ok {nreg : Nat} {w : IWord} {make : Reg → Instr} {i : Instr} :
    decodeWithRa nreg w make = .ok i ↔ ∃ r, decodeReg nreg (raField w) = .ok r ∧ i = make r := by
  unfold decodeWithRa
  split
  · next r hr =>
    simp only [hr, Except.ok.injEq, exists_eq_left']
    exact eq_comm
  · next e he => simp [he]

/-- Everything a format with two registers can decode to. -/
theorem decodeWithRaRb_eq_ok {nreg : Nat} {w : IWord} {make : Reg → Reg → Instr} {i : Instr} :
    decodeWithRaRb nreg w make = .ok i ↔
      ∃ r q, decodeReg nreg (raField w) = .ok r ∧ decodeReg nreg (rbField w) = .ok q ∧ i = make r q := by
  unfold decodeWithRaRb
  split
  · next r hr =>
    split
    · next q hq =>
      simp only [hr, hq, Except.ok.injEq, exists_and_left, exists_eq_left']
      exact eq_comm
    · next e he => simp [he]
  · next e he => simp [he]

/-! ### A word and its fields -/

/-- A word is its four fields packed. -/
theorem packWord_fields (w : IWord) : packWord (opField w) (raField w) (rbField w) (immField w) = w := by
  refine BitVec.eq_of_getLsbD_eq fun i hi => ?_
  unfold packWord opField raField rbField immField
  simp only [BitVec.getLsbD_append, BitVec.getLsbD_extractLsb']
  grind

/-- Two words with the same four fields are equal. -/
theorem word_ext {v w : IWord} (hop : opField v = opField w) (hra : raField v = raField w)
    (hrb : rbField v = rbField w) (himm : immField v = immField w) : v = w := by
  rw [← packWord_fields v, ← packWord_fields w, hop, hra, hrb, himm]

/-- Masking a word masks its opcode field. -/
theorem opField_and (v w : IWord) : opField (v &&& w) = opField v &&& opField w := by
  ext i hi; simp [opField]

/-- Masking a word masks its first register field. -/
theorem raField_and (v w : IWord) : raField (v &&& w) = raField v &&& raField w := by
  ext i hi; simp [raField]

/-- Masking a word masks its second register field. -/
theorem rbField_and (v w : IWord) : rbField (v &&& w) = rbField v &&& rbField w := by
  ext i hi; simp [rbField]

/-- Masking a word masks its immediate field. -/
theorem immField_and (v w : IWord) : immField (v &&& w) = immField v &&& immField w := by
  ext i hi; simp [immField]

/-- A field that holds a register's index is that register's field. -/
theorem regField_of_index {f : BitVec 4} {r : Reg} (h : f.toNat = r.index) : regField r = f := by
  apply BitVec.eq_of_toNat_eq
  rw [h]
  cases r <;> rfl

/-- A word that decodes has the opcode number of what it decodes to, and names registers the core has. -/
theorem decode_ok {nreg : Nat} {w : IWord} {i : Instr} (h : decode nreg w = .ok i) :
    opField w = i.opcode ∧ ∀ r ∈ i.regs, r.index < nreg := by
  unfold decode at h
  split at h <;>
    simp only [Except.ok.injEq, decodeWithRa_eq_ok, decodeWithRaRb_eq_ok, decodeReg_eq_ok, reduceCtorEq] at h
  all_goals
    first
    | (subst h; refine ⟨BitVec.eq_of_toNat_eq ?_, ?_⟩ <;> simp_all [Instr.opcode, Instr.regs])
    | (obtain ⟨r, hr, rfl⟩ := h; refine ⟨BitVec.eq_of_toNat_eq ?_, ?_⟩ <;> simp_all [Instr.opcode, Instr.regs])
    | (obtain ⟨r, q, hr, hq, rfl⟩ := h
       refine ⟨BitVec.eq_of_toNat_eq ?_, ?_⟩ <;> simp_all [Instr.opcode, Instr.regs])

/-- A sixteen-bit head and an immediate make the word with the head's three fields. -/
theorem head_append (head : BitVec 16) (imm : Word) :
    (head ++ imm : IWord) =
      packWord (head.extractLsb' 8 8) (head.extractLsb' 4 4) (head.extractLsb' 0 4) imm := by
  refine BitVec.eq_of_getLsbD_eq fun i hi => ?_
  unfold packWord
  simp only [BitVec.getLsbD_append, BitVec.getLsbD_extractLsb']
  grind

end Sys2Proof
end

