-- ==== Sys2Proof/Laws/Memory.lean ====
section
/-!
SUPPORT. The stack memory: what a read finds after a write, and that a write keeps the canonical form `Memory.wf`.
-/

namespace Sys2Proof.Machine

/-- Entries after a write: the one written, or one that was there. -/
theorem Memory.mem_write {m : Memory} {i : Nat} {v : Word} {e : Nat × Word} (h : e ∈ m.write i v) :
    e = (i, v) ∨ e ∈ m := by
  induction m with
  | nil => simpa [Memory.write] using h
  | cons e' rest ih =>
    obtain ⟨j, u⟩ := e'
    simp only [Memory.write] at h
    split at h
    · simpa using h
    · split at h
      · rcases List.mem_cons.mp h with rfl | h
        · exact .inl rfl
        · exact .inr (List.mem_cons_of_mem _ h)
      · rcases List.mem_cons.mp h with rfl | h
        · exact .inr List.mem_cons_self
        · exact (ih h).imp id (List.mem_cons_of_mem _)

/-- A write keeps the canonical form. -/
theorem Memory.write_wf {m : Memory} (h : m.wf) (i : Nat) (v : Word) : Memory.wf (m.write i v) := by
  induction m with
  | nil => simp [Memory.wf, Memory.write]
  | cons e rest ih =>
    obtain ⟨j, u⟩ := e
    obtain ⟨hj, hr⟩ := List.pairwise_cons.mp h
    simp only [Memory.write]
    split
    · next hij =>
      refine List.pairwise_cons.mpr ⟨fun e he => ?_, h⟩
      rcases List.mem_cons.mp he with rfl | he
      · exact hij
      · exact lt_trans hij (hj e he)
    · split
      · next hij => exact List.pairwise_cons.mpr ⟨fun e he => hij ▸ hj e he, hr⟩
      · refine List.pairwise_cons.mpr ⟨fun e he => ?_, ih hr⟩
        rcases Memory.mem_write he with rfl | he
        · simp only; omega
        · exact hj e he

/-- What a read finds after a write. -/
theorem Memory.read_write (m : Memory) (i j : Nat) (v : Word) :
    (m.write i v).read j = if j = i then some v else m.read j := by
  induction m with
  | nil => simp [Memory.write, Memory.read]
  | cons e rest ih =>
    obtain ⟨k, u⟩ := e
    simp only [Memory.write]
    split
    · simp [Memory.read]
    · split
      · next hik => subst hik; by_cases hj : j = i <;> simp [Memory.read, hj]
      · by_cases hk : j = k
        · have : j ≠ i := by omega
          simp [Memory.read, hk, show ¬ k = i by omega]
        · simp [Memory.read, hk, ih]

/-- An index that is listed is one of the entries'. -/
theorem Memory.exists_mem_of_read {m : Memory} {i : Nat} {v : Word} (h : m.read i = some v) : (i, v) ∈ m := by
  induction m with
  | nil => simp [Memory.read] at h
  | cons e rest ih =>
    obtain ⟨k, u⟩ := e
    simp only [Memory.read] at h
    split at h
    · next hik => cases h; subst hik; exact List.mem_cons_self
    · exact List.mem_cons_of_mem _ (ih h)

/-- The empty memory has the canonical form. -/
theorem Memory.wf_nil : Memory.wf [] := List.Pairwise.nil

/-- The memory right after reset has the canonical form. -/
theorem Memory.wf_reset : State.reset.slots.wf := Memory.wf_nil

end Sys2Proof.Machine
end

