-- ==== Sys2Proof/Laws/State.lean ====
section
/-!
SUPPORT. One lemma per field per update of the state, each true by rfl: what the update writes, and that it leaves
every other field alone. Cite these; never unfold an update.
-/

namespace Sys2Proof.Machine

variable (s : State)

@[simp] theorem State.setSlot_regs (i : Nat) (v : Word) : (s.setSlot i v).regs = s.regs := rfl
@[simp] theorem State.setSlot_cf (i : Nat) (v : Word) : (s.setSlot i v).cf = s.cf := rfl
@[simp] theorem State.setSlot_slots (i : Nat) (v : Word) : (s.setSlot i v).slots = s.slots.write i v := rfl
@[simp] theorem State.setSlot_size (i : Nat) (v : Word) : (s.setSlot i v).size = s.size := rfl
@[simp] theorem State.setSlot_cap (i : Nat) (v : Word) : (s.setSlot i v).cap = s.cap := rfl
@[simp] theorem State.setSlot_ip (i : Nat) (v : Word) : (s.setSlot i v).ip = s.ip := rfl
@[simp] theorem State.setSlot_halted (i : Nat) (v : Word) : (s.setSlot i v).halted = s.halted := rfl
@[simp] theorem State.setSlot_out (i : Nat) (v : Word) : (s.setSlot i v).out = s.out := rfl
@[simp] theorem State.setSlot_err (i : Nat) (v : Word) : (s.setSlot i v).err = s.err := rfl
@[simp] theorem State.setSlot_active (i : Nat) (v : Word) : (s.setSlot i v).active = s.active := rfl
@[simp] theorem State.setSlot_preflight (i : Nat) (v : Word) : (s.setSlot i v).preflight = s.preflight := rfl
@[simp] theorem State.setSlot_pins (i : Nat) (v : Word) : (s.setSlot i v).pins = s.pins := rfl
@[simp] theorem State.setSlot_resetCount (i : Nat) (v : Word) : (s.setSlot i v).resetCount = s.resetCount := rfl

@[simp] theorem State.setReg_regs (r : Reg) (v : Word) : (s.setReg r v).regs = s.regs.set r.index v := rfl
@[simp] theorem State.setReg_cf (r : Reg) (v : Word) : (s.setReg r v).cf = s.cf := rfl
@[simp] theorem State.setReg_slots (r : Reg) (v : Word) : (s.setReg r v).slots = s.slots := rfl
@[simp] theorem State.setReg_size (r : Reg) (v : Word) : (s.setReg r v).size = s.size := rfl
@[simp] theorem State.setReg_cap (r : Reg) (v : Word) : (s.setReg r v).cap = s.cap := rfl
@[simp] theorem State.setReg_ip (r : Reg) (v : Word) : (s.setReg r v).ip = s.ip := rfl
@[simp] theorem State.setReg_halted (r : Reg) (v : Word) : (s.setReg r v).halted = s.halted := rfl
@[simp] theorem State.setReg_out (r : Reg) (v : Word) : (s.setReg r v).out = s.out := rfl
@[simp] theorem State.setReg_err (r : Reg) (v : Word) : (s.setReg r v).err = s.err := rfl
@[simp] theorem State.setReg_active (r : Reg) (v : Word) : (s.setReg r v).active = s.active := rfl
@[simp] theorem State.setReg_preflight (r : Reg) (v : Word) : (s.setReg r v).preflight = s.preflight := rfl
@[simp] theorem State.setReg_pins (r : Reg) (v : Word) : (s.setReg r v).pins = s.pins := rfl
@[simp] theorem State.setReg_resetCount (r : Reg) (v : Word) : (s.setReg r v).resetCount = s.resetCount := rfl

@[simp] theorem State.setSize_regs (n : Nat) : (s.setSize n).regs = s.regs := rfl
@[simp] theorem State.setSize_cf (n : Nat) : (s.setSize n).cf = s.cf := rfl
@[simp] theorem State.setSize_slots (n : Nat) : (s.setSize n).slots = s.slots := rfl
@[simp] theorem State.setSize_size (n : Nat) : (s.setSize n).size = n := rfl
@[simp] theorem State.setSize_cap (n : Nat) : (s.setSize n).cap = s.cap := rfl
@[simp] theorem State.setSize_ip (n : Nat) : (s.setSize n).ip = s.ip := rfl
@[simp] theorem State.setSize_halted (n : Nat) : (s.setSize n).halted = s.halted := rfl
@[simp] theorem State.setSize_out (n : Nat) : (s.setSize n).out = s.out := rfl
@[simp] theorem State.setSize_err (n : Nat) : (s.setSize n).err = s.err := rfl
@[simp] theorem State.setSize_active (n : Nat) : (s.setSize n).active = s.active := rfl
@[simp] theorem State.setSize_preflight (n : Nat) : (s.setSize n).preflight = s.preflight := rfl
@[simp] theorem State.setSize_pins (n : Nat) : (s.setSize n).pins = s.pins := rfl
@[simp] theorem State.setSize_resetCount (n : Nat) : (s.setSize n).resetCount = s.resetCount := rfl

@[simp] theorem State.setCf_regs (f : CompareFlag) : (s.setCf f).regs = s.regs := rfl
@[simp] theorem State.setCf_cf (f : CompareFlag) : (s.setCf f).cf = f := rfl
@[simp] theorem State.setCf_slots (f : CompareFlag) : (s.setCf f).slots = s.slots := rfl
@[simp] theorem State.setCf_size (f : CompareFlag) : (s.setCf f).size = s.size := rfl
@[simp] theorem State.setCf_cap (f : CompareFlag) : (s.setCf f).cap = s.cap := rfl
@[simp] theorem State.setCf_ip (f : CompareFlag) : (s.setCf f).ip = s.ip := rfl
@[simp] theorem State.setCf_halted (f : CompareFlag) : (s.setCf f).halted = s.halted := rfl
@[simp] theorem State.setCf_out (f : CompareFlag) : (s.setCf f).out = s.out := rfl
@[simp] theorem State.setCf_err (f : CompareFlag) : (s.setCf f).err = s.err := rfl
@[simp] theorem State.setCf_active (f : CompareFlag) : (s.setCf f).active = s.active := rfl
@[simp] theorem State.setCf_preflight (f : CompareFlag) : (s.setCf f).preflight = s.preflight := rfl
@[simp] theorem State.setCf_pins (f : CompareFlag) : (s.setCf f).pins = s.pins := rfl
@[simp] theorem State.setCf_resetCount (f : CompareFlag) : (s.setCf f).resetCount = s.resetCount := rfl

@[simp] theorem State.setOut_regs (v : Word) : (s.setOut v).regs = s.regs := rfl
@[simp] theorem State.setOut_cf (v : Word) : (s.setOut v).cf = s.cf := rfl
@[simp] theorem State.setOut_slots (v : Word) : (s.setOut v).slots = s.slots := rfl
@[simp] theorem State.setOut_size (v : Word) : (s.setOut v).size = s.size := rfl
@[simp] theorem State.setOut_cap (v : Word) : (s.setOut v).cap = s.cap := rfl
@[simp] theorem State.setOut_ip (v : Word) : (s.setOut v).ip = s.ip := rfl
@[simp] theorem State.setOut_halted (v : Word) : (s.setOut v).halted = s.halted := rfl
@[simp] theorem State.setOut_out (v : Word) : (s.setOut v).out = v := rfl
@[simp] theorem State.setOut_err (v : Word) : (s.setOut v).err = s.err := rfl
@[simp] theorem State.setOut_active (v : Word) : (s.setOut v).active = s.active := rfl
@[simp] theorem State.setOut_preflight (v : Word) : (s.setOut v).preflight = s.preflight := rfl
@[simp] theorem State.setOut_pins (v : Word) : (s.setOut v).pins = s.pins := rfl
@[simp] theorem State.setOut_resetCount (v : Word) : (s.setOut v).resetCount = s.resetCount := rfl

@[simp] theorem State.setIp_regs (t : BitVec 64) : (s.setIp t).regs = s.regs := rfl
@[simp] theorem State.setIp_cf (t : BitVec 64) : (s.setIp t).cf = s.cf := rfl
@[simp] theorem State.setIp_slots (t : BitVec 64) : (s.setIp t).slots = s.slots := rfl
@[simp] theorem State.setIp_size (t : BitVec 64) : (s.setIp t).size = s.size := rfl
@[simp] theorem State.setIp_cap (t : BitVec 64) : (s.setIp t).cap = s.cap := rfl
@[simp] theorem State.setIp_ip (t : BitVec 64) : (s.setIp t).ip = t := rfl
@[simp] theorem State.setIp_halted (t : BitVec 64) : (s.setIp t).halted = s.halted := rfl
@[simp] theorem State.setIp_out (t : BitVec 64) : (s.setIp t).out = s.out := rfl
@[simp] theorem State.setIp_err (t : BitVec 64) : (s.setIp t).err = s.err := rfl
@[simp] theorem State.setIp_active (t : BitVec 64) : (s.setIp t).active = s.active := rfl
@[simp] theorem State.setIp_preflight (t : BitVec 64) : (s.setIp t).preflight = s.preflight := rfl
@[simp] theorem State.setIp_pins (t : BitVec 64) : (s.setIp t).pins = s.pins := rfl
@[simp] theorem State.setIp_resetCount (t : BitVec 64) : (s.setIp t).resetCount = s.resetCount := rfl

@[simp] theorem State.advance_regs : (s.advance).regs = s.regs := rfl
@[simp] theorem State.advance_cf : (s.advance).cf = s.cf := rfl
@[simp] theorem State.advance_slots : (s.advance).slots = s.slots := rfl
@[simp] theorem State.advance_size : (s.advance).size = s.size := rfl
@[simp] theorem State.advance_cap : (s.advance).cap = s.cap := rfl
@[simp] theorem State.advance_ip : (s.advance).ip = s.ip + 1 := rfl
@[simp] theorem State.advance_halted : (s.advance).halted = s.halted := rfl
@[simp] theorem State.advance_out : (s.advance).out = s.out := rfl
@[simp] theorem State.advance_err : (s.advance).err = s.err := rfl
@[simp] theorem State.advance_active : (s.advance).active = s.active := rfl
@[simp] theorem State.advance_preflight : (s.advance).preflight = s.preflight := rfl
@[simp] theorem State.advance_pins : (s.advance).pins = s.pins := rfl
@[simp] theorem State.advance_resetCount : (s.advance).resetCount = s.resetCount := rfl

@[simp] theorem State.setHalted_regs : (s.setHalted).regs = s.regs := rfl
@[simp] theorem State.setHalted_cf : (s.setHalted).cf = s.cf := rfl
@[simp] theorem State.setHalted_slots : (s.setHalted).slots = s.slots := rfl
@[simp] theorem State.setHalted_size : (s.setHalted).size = s.size := rfl
@[simp] theorem State.setHalted_cap : (s.setHalted).cap = s.cap := rfl
@[simp] theorem State.setHalted_ip : (s.setHalted).ip = s.ip := rfl
@[simp] theorem State.setHalted_halted : (s.setHalted).halted = true := rfl
@[simp] theorem State.setHalted_out : (s.setHalted).out = s.out := rfl
@[simp] theorem State.setHalted_err : (s.setHalted).err = s.err := rfl
@[simp] theorem State.setHalted_active : (s.setHalted).active = s.active := rfl
@[simp] theorem State.setHalted_preflight : (s.setHalted).preflight = s.preflight := rfl
@[simp] theorem State.setHalted_pins : (s.setHalted).pins = s.pins := rfl
@[simp] theorem State.setHalted_resetCount : (s.setHalted).resetCount = s.resetCount := rfl

@[simp] theorem State.endRun_regs : (s.endRun).regs = s.regs := rfl
@[simp] theorem State.endRun_cf : (s.endRun).cf = s.cf := rfl
@[simp] theorem State.endRun_slots : (s.endRun).slots = s.slots := rfl
@[simp] theorem State.endRun_size : (s.endRun).size = s.size := rfl
@[simp] theorem State.endRun_cap : (s.endRun).cap = s.cap := rfl
@[simp] theorem State.endRun_ip : (s.endRun).ip = s.ip := rfl
@[simp] theorem State.endRun_halted : (s.endRun).halted = s.halted := rfl
@[simp] theorem State.endRun_out : (s.endRun).out = s.out := rfl
@[simp] theorem State.endRun_err : (s.endRun).err = s.err := rfl
@[simp] theorem State.endRun_active : (s.endRun).active = false := rfl
@[simp] theorem State.endRun_preflight : (s.endRun).preflight = s.preflight := rfl
@[simp] theorem State.endRun_pins : (s.endRun).pins = s.pins := rfl
@[simp] theorem State.endRun_resetCount : (s.endRun).resetCount = s.resetCount := rfl

@[simp] theorem State.raise_regs (e : ErrorCode) : (s.raise e).regs = s.regs := rfl
@[simp] theorem State.raise_cf (e : ErrorCode) : (s.raise e).cf = s.cf := rfl
@[simp] theorem State.raise_slots (e : ErrorCode) : (s.raise e).slots = s.slots := rfl
@[simp] theorem State.raise_size (e : ErrorCode) : (s.raise e).size = s.size := rfl
@[simp] theorem State.raise_cap (e : ErrorCode) : (s.raise e).cap = s.cap := rfl
@[simp] theorem State.raise_ip (e : ErrorCode) : (s.raise e).ip = s.ip := rfl
@[simp] theorem State.raise_halted (e : ErrorCode) : (s.raise e).halted = s.halted := rfl
@[simp] theorem State.raise_out (e : ErrorCode) : (s.raise e).out = s.out := rfl
@[simp] theorem State.raise_err (e : ErrorCode) : (s.raise e).err = e := rfl
@[simp] theorem State.raise_active (e : ErrorCode) : (s.raise e).active = false := rfl
@[simp] theorem State.raise_preflight (e : ErrorCode) : (s.raise e).preflight = s.preflight := rfl
@[simp] theorem State.raise_pins (e : ErrorCode) : (s.raise e).pins = s.pins := rfl
@[simp] theorem State.raise_resetCount (e : ErrorCode) : (s.raise e).resetCount = s.resetCount := rfl

@[simp] theorem State.beginRun_regs : (s.beginRun).regs = s.regs := rfl
@[simp] theorem State.beginRun_cf : (s.beginRun).cf = s.cf := rfl
@[simp] theorem State.beginRun_slots : (s.beginRun).slots = s.slots := rfl
@[simp] theorem State.beginRun_size : (s.beginRun).size = s.size := rfl
@[simp] theorem State.beginRun_cap : (s.beginRun).cap = s.cap := rfl
@[simp] theorem State.beginRun_ip : (s.beginRun).ip = 0 := rfl
@[simp] theorem State.beginRun_halted : (s.beginRun).halted = s.halted := rfl
@[simp] theorem State.beginRun_out : (s.beginRun).out = s.pins.outInit := rfl
@[simp] theorem State.beginRun_err : (s.beginRun).err = .noError := rfl
@[simp] theorem State.beginRun_active : (s.beginRun).active = true := rfl
@[simp] theorem State.beginRun_preflight : (s.beginRun).preflight = s.preflight := rfl
@[simp] theorem State.beginRun_pins : (s.beginRun).pins = s.pins := rfl
@[simp] theorem State.beginRun_resetCount : (s.beginRun).resetCount = s.resetCount := rfl

/-! ### The views under the updates that do not touch them -/

@[simp] theorem State.setSlot_nreg_eq (i : Nat) (v : Word) : (s.setSlot i v).nreg = s.nreg := rfl
@[simp] theorem State.setSlot_progLen_eq (i : Nat) (v : Word) : (s.setSlot i v).progLen = s.progLen := rfl
@[simp] theorem State.setSlot_fetch_eq (i : Nat) (v : Word) : (s.setSlot i v).fetch = s.fetch := rfl
@[simp] theorem State.setSlot_reg_eq (i : Nat) (v : Word) (q : Reg) : (s.setSlot i v).reg? q = s.reg? q := rfl

@[simp] theorem State.setReg_progLen_eq (r : Reg) (v : Word) : (s.setReg r v).progLen = s.progLen := rfl
@[simp] theorem State.setReg_fetch_eq (r : Reg) (v : Word) : (s.setReg r v).fetch = s.fetch := rfl
@[simp] theorem State.setReg_slot_eq (r : Reg) (v : Word) (j : Nat) : (s.setReg r v).slot j = s.slot j := rfl

@[simp] theorem State.setSize_nreg_eq (n : Nat) : (s.setSize n).nreg = s.nreg := rfl
@[simp] theorem State.setSize_progLen_eq (n : Nat) : (s.setSize n).progLen = s.progLen := rfl
@[simp] theorem State.setSize_fetch_eq (n : Nat) : (s.setSize n).fetch = s.fetch := rfl
@[simp] theorem State.setSize_reg_eq (n : Nat) (q : Reg) : (s.setSize n).reg? q = s.reg? q := rfl
@[simp] theorem State.setSize_slot_eq (n : Nat) (j : Nat) : (s.setSize n).slot j = s.slot j := rfl

@[simp] theorem State.setCf_nreg_eq (f : CompareFlag) : (s.setCf f).nreg = s.nreg := rfl
@[simp] theorem State.setCf_progLen_eq (f : CompareFlag) : (s.setCf f).progLen = s.progLen := rfl
@[simp] theorem State.setCf_fetch_eq (f : CompareFlag) : (s.setCf f).fetch = s.fetch := rfl
@[simp] theorem State.setCf_reg_eq (f : CompareFlag) (q : Reg) : (s.setCf f).reg? q = s.reg? q := rfl
@[simp] theorem State.setCf_slot_eq (f : CompareFlag) (j : Nat) : (s.setCf f).slot j = s.slot j := rfl

@[simp] theorem State.setOut_nreg_eq (v : Word) : (s.setOut v).nreg = s.nreg := rfl
@[simp] theorem State.setOut_progLen_eq (v : Word) : (s.setOut v).progLen = s.progLen := rfl
@[simp] theorem State.setOut_fetch_eq (v : Word) : (s.setOut v).fetch = s.fetch := rfl
@[simp] theorem State.setOut_reg_eq (v : Word) (q : Reg) : (s.setOut v).reg? q = s.reg? q := rfl
@[simp] theorem State.setOut_slot_eq (v : Word) (j : Nat) : (s.setOut v).slot j = s.slot j := rfl

@[simp] theorem State.setIp_nreg_eq (t : BitVec 64) : (s.setIp t).nreg = s.nreg := rfl
@[simp] theorem State.setIp_progLen_eq (t : BitVec 64) : (s.setIp t).progLen = s.progLen := rfl
@[simp] theorem State.setIp_reg_eq (t : BitVec 64) (q : Reg) : (s.setIp t).reg? q = s.reg? q := rfl
@[simp] theorem State.setIp_slot_eq (t : BitVec 64) (j : Nat) : (s.setIp t).slot j = s.slot j := rfl

@[simp] theorem State.advance_nreg_eq : (s.advance).nreg = s.nreg := rfl
@[simp] theorem State.advance_progLen_eq : (s.advance).progLen = s.progLen := rfl
@[simp] theorem State.advance_reg_eq (q : Reg) : (s.advance).reg? q = s.reg? q := rfl
@[simp] theorem State.advance_slot_eq (j : Nat) : (s.advance).slot j = s.slot j := rfl

@[simp] theorem State.setHalted_nreg_eq : (s.setHalted).nreg = s.nreg := rfl
@[simp] theorem State.setHalted_progLen_eq : (s.setHalted).progLen = s.progLen := rfl
@[simp] theorem State.setHalted_fetch_eq : (s.setHalted).fetch = s.fetch := rfl
@[simp] theorem State.setHalted_reg_eq (q : Reg) : (s.setHalted).reg? q = s.reg? q := rfl
@[simp] theorem State.setHalted_slot_eq (j : Nat) : (s.setHalted).slot j = s.slot j := rfl

@[simp] theorem State.endRun_nreg_eq : (s.endRun).nreg = s.nreg := rfl
@[simp] theorem State.endRun_progLen_eq : (s.endRun).progLen = s.progLen := rfl
@[simp] theorem State.endRun_fetch_eq : (s.endRun).fetch = s.fetch := rfl
@[simp] theorem State.endRun_reg_eq (q : Reg) : (s.endRun).reg? q = s.reg? q := rfl
@[simp] theorem State.endRun_slot_eq (j : Nat) : (s.endRun).slot j = s.slot j := rfl

@[simp] theorem State.raise_nreg_eq (e : ErrorCode) : (s.raise e).nreg = s.nreg := rfl
@[simp] theorem State.raise_progLen_eq (e : ErrorCode) : (s.raise e).progLen = s.progLen := rfl
@[simp] theorem State.raise_fetch_eq (e : ErrorCode) : (s.raise e).fetch = s.fetch := rfl
@[simp] theorem State.raise_reg_eq (e : ErrorCode) (q : Reg) : (s.raise e).reg? q = s.reg? q := rfl
@[simp] theorem State.raise_slot_eq (e : ErrorCode) (j : Nat) : (s.raise e).slot j = s.slot j := rfl

@[simp] theorem State.beginRun_nreg_eq : (s.beginRun).nreg = s.nreg := rfl
@[simp] theorem State.beginRun_progLen_eq : (s.beginRun).progLen = s.progLen := rfl
@[simp] theorem State.beginRun_reg_eq (q : Reg) : (s.beginRun).reg? q = s.reg? q := rfl
@[simp] theorem State.beginRun_slot_eq (j : Nat) : (s.beginRun).slot j = s.slot j := rfl

end Sys2Proof.Machine
end

