-- ==== Sys2Proof/Laws/Ops.lean ====
section
/-!
SUPPORT. For each shared operation one lemma that says once everything it can do, and the reads of slots and registers
after a write. Later proofs cite these instead of unfolding an operation.
-/

namespace Sys2Proof.Machine

/-! ### Reads after writes -/

/-- A slot after a slot was written. -/
theorem State.slot_setSlot (s : State) (i j : Nat) (v : Word) :
    (s.setSlot i v).slot j = if j = i then v else s.slot j := by
  simp only [State.slot, State.setSlot_slots, State.setSlot_resetCount, Memory.read_write]
  split <;> rfl

/-- The registers' names and indices match. -/
theorem Reg.index_inj {q r : Reg} : q.index = r.index ↔ q = r := by
  cases q <;> cases r <;> decide

/-- A register after one the core has was written. -/
theorem State.reg_setReg (s : State) (q r : Reg) (v : Word) (h : r.index < s.nreg) :
    (s.setReg r v).reg? q = if q = r then some v else s.reg? q := by
  simp only [State.reg?, State.setReg_regs, List.getElem?_set]
  by_cases hq : q = r
  · subst hq; simp only [if_true]; exact if_pos h
  · rw [if_neg (fun e => hq (Reg.index_inj.mp e).symm), if_neg hq]

/-- Writing a register does not change NREG. -/
@[simp] theorem State.setReg_nreg (s : State) (r : Reg) (v : Word) : (s.setReg r v).nreg = s.nreg :=
  List.length_set

/-- A core has a register exactly when its index is below NREG. -/
theorem State.reg_of_lt {s : State} {r : Reg} (h : r.index < s.nreg) : ∃ v, s.reg? r = some v :=
  ⟨_, List.getElem?_eq_getElem h⟩

/-- A register that reads as a value is one the core has. -/
theorem State.lt_of_reg {s : State} {r : Reg} {v : Word} (h : s.reg? r = some v) : r.index < s.nreg :=
  (List.getElem?_eq_some_iff.mp h).1

/-- A register reads as no value exactly when the core does not have it. -/
theorem State.reg_eq_none {s : State} {r : Reg} : s.reg? r = none ↔ s.nreg ≤ r.index :=
  List.getElem?_eq_none_iff

/-! ### What each operation can do -/

variable {s t : State}

/-- MemRead inside the space. -/
@[simp] theorem memRead_of_lt {i : Nat} (h : i < s.cap) (k : Word → Result) : memRead s i k = k (s.slot i) :=
  if_pos h

/-- MemWrite inside the space. -/
@[simp] theorem memWrite_of_lt {i : Nat} (h : i < s.cap) (v : Word) (k : State → Result) :
    memWrite s i v k = k (s.setSlot i v) :=
  if_pos h

/-- Everything MemRead can do on the way to a next state. -/
theorem memRead_next {i : Nat} {k : Word → Result} (h : memRead s i k = .next t) :
    i < s.cap ∧ k (s.slot i) = .next t := by
  unfold memRead at h
  split at h
  · exact ⟨‹_›, h⟩
  · cases h

/-- Everything MemWrite can do on the way to a next state. -/
theorem memWrite_next {i : Nat} {v : Word} {k : State → Result} (h : memWrite s i v k = .next t) :
    i < s.cap ∧ k (s.setSlot i v) = .next t := by
  unfold memWrite at h
  split at h
  · exact ⟨‹_›, h⟩
  · cases h

/-- A register operand the core has. -/
theorem withReg_of_some {r : Reg} {v : Word} (h : s.reg? r = some v) (k : Word → Result) :
    withReg s r k = k v := by
  simp [withReg, h]

/-- A register operand the core does not have. -/
theorem withReg_of_none {r : Reg} (h : s.reg? r = none) (k : Word → Result) :
    withReg s r k = .next (s.raise .unknownOperation) := by
  simp [withReg, h]

/-- Everything a register operand can do on the way to a next state. -/
theorem withReg_next {r : Reg} {k : Word → Result} (h : withReg s r k = .next t) :
    (∃ v, s.reg? r = some v ∧ k v = .next t) ∨ (s.reg? r = none ∧ t = s.raise .unknownOperation) := by
  unfold withReg at h
  split at h
  · next v hv => exact .inl ⟨v, hv, h⟩
  · next hn => exact .inr ⟨hn, by cases h; rfl⟩

/-- Everything the top-of-stack operand can do on the way to a next state. -/
theorem withTop_next {k : Word → Result} (h : withTop s k = .next t) :
    (s.size = 0 ∧ t = s.raise .stackEmpty) ∨
    (0 < s.size ∧ s.size - 1 < s.cap ∧ k (s.slot (s.size - 1)) = .next t) := by
  unfold withTop at h
  split at h
  · next h0 => exact .inl ⟨h0, by cases h; rfl⟩
  · next h0 => obtain ⟨hlt, hk⟩ := memRead_next h; exact .inr ⟨by omega, hlt, hk⟩

/-- Everything the two-slot operand can do on the way to a next state. -/
theorem withTopTwo_next {k : Word → Word → Result} (h : withTopTwo s k = .next t) :
    (s.size < 2 ∧ t = s.raise .stackUnderflow) ∨
    (2 ≤ s.size ∧ s.size - 1 < s.cap ∧ k (s.slot (s.size - 2)) (s.slot (s.size - 1)) = .next t) := by
  unfold withTopTwo at h
  split at h
  · next h0 => exact .inl ⟨h0, by cases h; rfl⟩
  · next h0 =>
    obtain ⟨_, h⟩ := memRead_next h
    obtain ⟨hlt, hk⟩ := memRead_next h
    exact .inr ⟨by omega, hlt, hk⟩

/-- Everything a push can do on the way to a next state. -/
theorem pushValue_next {v : Word} (h : pushValue s v = .next t) :
    (s.cap < s.size + 1 ∧ t = s.raise .stackOverflow) ∨
    (s.size < s.cap ∧ t = ((s.setSlot s.size v).setSize (s.size + 1)).advance) := by
  unfold pushValue at h
  split at h
  · next h0 => exact .inl ⟨h0, by cases h; rfl⟩
  · obtain ⟨hlt, hk⟩ := memWrite_next h; exact .inr ⟨hlt, by cases hk; rfl⟩

/-- Everything the write of a binary operation's result can do on the way to a next state. -/
theorem replaceTopTwo_next {v : Word} (h : replaceTopTwo s v = .next t) :
    s.size - 2 < s.cap ∧ t = ((s.setSlot (s.size - 2) v).setSize (s.size - 1)).advance := by
  obtain ⟨hlt, hk⟩ := memWrite_next h
  exact ⟨hlt, by cases hk; rfl⟩

/-- Everything a jump can do on the way to a next state. -/
theorem jumpTo_next {imm : Word} (h : jumpTo s imm = .next t) :
    ((imm.toInt < 0 ∨ imm.toInt ≥ s.progLen) ∧ t = s.raise .invalidJumpAddress) ∨
    (0 ≤ imm.toInt ∧ imm.toInt < s.progLen ∧ t = s.setIp imm) := by
  unfold jumpTo at h
  split at h
  · next h0 => exact .inl ⟨h0, by cases h; rfl⟩
  · next h0 => exact .inr ⟨by omega, by omega, by cases h; rfl⟩

/-- Everything a conditional jump can do on the way to a next state. -/
theorem condJump_next {c : Bool} {imm : Word} (h : condJump s c imm = .next t) :
    (c = true ∧ jumpTo s imm = .next t) ∨ (c = false ∧ t = s.advance) := by
  unfold condJump at h
  split at h
  · exact .inl ⟨‹_›, h⟩
  · next h0 => exact .inr ⟨by simpa using h0, by cases h; rfl⟩

end Sys2Proof.Machine
end

