-- ==== Sys2Proof/Laws/RunLoop.lean ====
section
/-!
SUPPORT. The sequencer: for the run loop, reset, START and the step one lemma each that says everything it can do on the
way to a next state.
-/

namespace Sys2Proof.Machine

variable {s t : State}

/-- A fetch finds a word exactly when `ip < N`. -/
theorem fetch_eq_none : s.fetch = none ↔ s.progLen ≤ s.ip.toNat := List.getElem?_eq_none_iff

/-- A fetch that finds a word has `ip < N`. -/
theorem lt_of_fetch {w : IWord} (h : s.fetch = some w) : s.ip.toNat < s.progLen :=
  (List.getElem?_eq_some_iff.mp h).1

/-- A word placed at an index of a program is what stands there. -/
theorem getElem_placeWord (program : List IWord) (i : Nat) (w : IWord) : (placeWord program i w)[i]? = some w := by
  unfold placeWord
  rw [List.getElem?_set_self]
  simp only [List.length_append, List.length_replicate]
  omega

/-- The word that `withInstruction` places is the one fetched next. -/
theorem State.fetch_withInstruction (s : State) (w : IWord) : (s.withInstruction w).fetch = some w :=
  getElem_placeWord _ _ _

/-- The step after `withInstruction` runs the instruction placed. -/
theorem step_withInstruction (s : State) {w : IWord} {i : Instr} (h : decode s.nreg w = .ok i) :
    step (s.withInstruction w) = exec i (s.withInstruction w) := by
  have hn : decode (s.withInstruction w).nreg w = .ok i := h
  have hr : (s.withInstruction w).pins.rst = false := rfl
  have ha : (s.withInstruction w).active = true := rfl
  have hh : (s.withInstruction w).halted = false := rfl
  simp [step, clockEdge, runStep, hr, ha, hh, State.fetch_withInstruction, hn]

/-- Everything one pass of the run loop can do on the way to a next state. -/
theorem runStep_next (h : runStep s = .next t) :
    (s.halted = true ∧ t = s.endRun) ∨
    (s.halted = false ∧ s.fetch = none ∧ t = s.raise .invalidMemoryAccess) ∨
    (∃ w e, s.halted = false ∧ s.fetch = some w ∧ decode s.nreg w = .error e ∧ t = s.raise .unknownOperation) ∨
    (∃ w i, s.halted = false ∧ s.fetch = some w ∧ decode s.nreg w = .ok i ∧ exec i s = .next t) := by
  unfold runStep at h
  split at h
  · next hh => exact .inl ⟨hh, by cases h; rfl⟩
  · next hh =>
    have hh : s.halted = false := by simpa using hh
    split at h
    · next hf => exact .inr (.inl ⟨hh, hf, by cases h; rfl⟩)
    · next w hf =>
      split at h
      · next e hd => exact .inr (.inr (.inl ⟨w, e, hh, hf, hd, by cases h; rfl⟩))
      · next i hd => exact .inr (.inr (.inr ⟨w, i, hh, hf, hd, h⟩))

/-- Everything a reset can do on the way to a next state. -/
theorem resetCore_next (h : resetCore s = .next t) :
    s.pins.cap.toNat ≠ 0 ∧
      t = State.afterReset s.nreg s.preflight s.pins.cap.toNat s.pins (s.resetCount + 1) := by
  unfold resetCore at h
  split at h
  · cases h
  · exact ⟨‹_›, by cases h; rfl⟩

/-- Everything a START can do on the way to a next state. -/
theorem startRun_next (h : startRun s = .next t) :
    s.progLen < 2 ^ 63 ∧
      ((s.preflight = true ∧ hasHalt s.pins.program = false ∧ t = s.beginRun.raise .programWithoutHalt) ∨
       ((s.preflight = false ∨ hasHalt s.pins.program = true) ∧ t = s.beginRun)) := by
  unfold startRun at h
  split at h
  · cases h
  · next hN =>
    refine ⟨by omega, ?_⟩
    split at h
    · next hp =>
      have hp := Bool.and_eq_true_iff.mp hp
      exact .inl ⟨hp.1, by simpa using hp.2, by cases h; rfl⟩
    · next hp =>
      refine .inr ⟨?_, by cases h; rfl⟩
      cases hq : s.preflight <;> simp_all

/-- Everything a step can do on the way to a next state. -/
theorem step_next (h : step s = .next t) :
    (s.pins.rst = true ∧ resetCore s = .next t) ∨
    (s.pins.rst = false ∧ s.active = true ∧ runStep s = .next t) ∨
    (s.pins.rst = false ∧ s.active = false ∧ s.pins.start = true ∧ startRun s = .next t) ∨
    (s.pins.rst = false ∧ s.active = false ∧ s.pins.start = false ∧ t = s) := by
  unfold step clockEdge at h
  split at h
  · exact .inl ⟨‹_›, h⟩
  · next hr =>
    have hr : s.pins.rst = false := by simpa using hr
    split at h
    · exact .inr (.inl ⟨hr, ‹_›, h⟩)
    · next ha =>
      have ha : s.active = false := by simpa using ha
      split at h
      · exact .inr (.inr (.inl ⟨hr, ha, ‹_›, h⟩))
      · next hs => exact .inr (.inr (.inr ⟨hr, ha, by simpa using hs, by cases h; rfl⟩))

end Sys2Proof.Machine
end

