-- ==== Sys2Proof/Laws/Exec.lean ====
section
/-!
SUPPORT. Everything an instruction can do on the way to a next state, said once: `exec_next` inverts `exec` into one of
eleven effects, each with the entries of the spec's tables that go with it. Invariants and whole-machine rules follow by
cases on the effect.
-/

namespace Sys2Proof.Machine

/-- The effects of an instruction `i` on a state `s`. -/
inductive Effect (s : State) : Instr → State → Prop
  /-- It raises an error of its row, or UnknownOperation because it names a register the core does not have. -/
  | raises (i : Instr) (e : ErrorCode) (error : e ≠ .noError)
      (listed : e ∈ mayRaise i ∨ (e = .unknownOperation ∧ ¬ WellFormed s.nreg i)) : Effect s i (s.raise e)
  /-- It pushes a value. -/
  | pushes (i : Instr) (v : Word) (size : ∀ n, i.sizeAfter n = n + 1) (ip : ipAfter s.cf s.ip i = s.ip + 1)
      (room : s.size < s.cap) : Effect s i ((s.setSlot s.size v).setSize (s.size + 1)).advance
  /-- It drops the top. -/
  | drops (some : 0 < s.size) : Effect s .pop (s.setSize (s.size - 1)).advance
  /-- It replaces the two top slots by one. -/
  | replaces (i : Instr) (v : Word) (size : ∀ n, i.sizeAfter n = n - 1) (ip : ipAfter s.cf s.ip i = s.ip + 1)
      (two : 2 ≤ s.size) (inside : s.size - 2 < s.cap) :
      Effect s i ((s.setSlot (s.size - 2) v).setSize (s.size - 1)).advance
  /-- It pops the top into a register. -/
  | popsInto (i : Instr) (r : Reg) (v : Word) (size : ∀ n, i.sizeAfter n = n - 1) (written : i.writtenRegs = [r])
      (ip : ipAfter s.cf s.ip i = s.ip + 1) (some : 0 < s.size) (inside : s.size - 1 < s.cap)
      (present : r.index < s.nreg) : Effect s i ((s.setReg r v).setSize (s.size - 1)).advance
  /-- It writes a register. -/
  | sets (i : Instr) (r : Reg) (v : Word) (size : ∀ n, i.sizeAfter n = n) (written : i.writtenRegs = [r])
      (ip : ipAfter s.cf s.ip i = s.ip + 1) (present : r.index < s.nreg) : Effect s i (s.setReg r v).advance
  /-- It writes the compare flag. -/
  | flags (i : Instr) (f : CompareFlag) (size : ∀ n, i.sizeAfter n = n) (ip : ipAfter s.cf s.ip i = s.ip + 1)
      (compare : i.isCompare = true) : Effect s i (s.setCf f).advance
  /-- It writes the output. -/
  | outputs (i : Instr) (v : Word) (size : ∀ n, i.sizeAfter n = n) (ip : ipAfter s.cf s.ip i = s.ip + 1)
      (output : i.isOutput = true) : Effect s i (s.setOut v).advance
  /-- It goes to a target in `0 .. N-1`. -/
  | jumps (i : Instr) (imm : Word) (size : ∀ n, i.sizeAfter n = n) (ip : ipAfter s.cf s.ip i = imm)
      (low : 0 ≤ imm.toInt) (high : imm.toInt < s.progLen) : Effect s i (s.setIp imm)
  /-- It only advances `ip`. -/
  | advances (i : Instr) (size : ∀ n, i.sizeAfter n = n) (ip : ipAfter s.cf s.ip i = s.ip + 1) : Effect s i s.advance
  /-- It sets `halted`. -/
  | halts : Effect s .halt s.setHalted

variable {s t : State} {i : Instr} {r : Reg}

/-- An instruction that names a register the core does not have raises UnknownOperation. -/
theorem Effect.of_absent (hr : r ∈ i.regs) (h : s.reg? r = none) : Effect s i (s.raise .unknownOperation) :=
  .raises _ _ (by decide) (.inr ⟨rfl, fun hw => absurd (hw r hr) (Nat.not_lt.mpr (State.reg_eq_none.mp h))⟩)

/-- The shape of `load`, `append` and `decrement`. -/
theorem Effect.of_popsInto {f : Word → Word → Word} (hr : r ∈ i.regs) (hm : .stackEmpty ∈ mayRaise i)
    (hsize : ∀ n, i.sizeAfter n = n - 1) (hw : i.writtenRegs = [r]) (hip : ipAfter s.cf s.ip i = s.ip + 1)
    (h : withReg s r (fun x => withTop s (fun v => .next ((s.setReg r (f x v)).setSize (s.size - 1)).advance)) =
      .next t) : Effect s i t := by
  obtain ⟨x, hx, h⟩ | ⟨hn, rfl⟩ := withReg_next h
  · obtain ⟨h0, rfl⟩ | ⟨h0, h1, h⟩ := withTop_next h
    · exact .raises _ _ (by decide) (.inl hm)
    · cases h; exact .popsInto _ _ _ hsize hw hip h0 h1 (State.lt_of_reg hx)
  · exact .of_absent hr hn

/-- The shape of `move`, `append_val` and `decrement_val`. -/
theorem Effect.of_sets {f : Word → Word} (hr : r ∈ i.regs) (hsize : ∀ n, i.sizeAfter n = n)
    (hw : i.writtenRegs = [r]) (hip : ipAfter s.cf s.ip i = s.ip + 1)
    (h : withReg s r (fun x => .next (s.setReg r (f x)).advance) = .next t) : Effect s i t := by
  obtain ⟨x, hx, h⟩ | ⟨hn, rfl⟩ := withReg_next h
  · cases h; exact .sets _ _ _ hsize hw hip (State.lt_of_reg hx)
  · exact .of_absent hr hn

/-- The shape of `push` and `unload`. -/
theorem Effect.of_pushes {v : Word} (hm : .stackOverflow ∈ mayRaise i) (hsize : ∀ n, i.sizeAfter n = n + 1)
    (hip : ipAfter s.cf s.ip i = s.ip + 1) (h : pushValue s v = .next t) : Effect s i t := by
  obtain ⟨_, rfl⟩ | ⟨h1, rfl⟩ := pushValue_next h
  · exact .raises _ _ (by decide) (.inl hm)
  · exact .pushes _ _ hsize hip h1

/-- The shape of `plus`, `minus` and `mult`. -/
theorem Effect.of_replaces {f : Word → Word → Word} (hm : .stackUnderflow ∈ mayRaise i)
    (hsize : ∀ n, i.sizeAfter n = n - 1) (hip : ipAfter s.cf s.ip i = s.ip + 1)
    (h : withTopTwo s (fun a b => replaceTopTwo s (f a b)) = .next t) : Effect s i t := by
  obtain ⟨_, rfl⟩ | ⟨h1, _, h⟩ := withTopTwo_next h
  · exact .raises _ _ (by decide) (.inl hm)
  · obtain ⟨h3, rfl⟩ := replaceTopTwo_next h
    exact .replaces _ _ hsize hip h1 h3

/-- The shape of `jump`. -/
theorem Effect.of_jumps {imm : Word} (hm : .invalidJumpAddress ∈ mayRaise i) (hsize : ∀ n, i.sizeAfter n = n)
    (hip : ipAfter s.cf s.ip i = imm) (h : jumpTo s imm = .next t) : Effect s i t := by
  obtain ⟨_, rfl⟩ | ⟨h1, h2, rfl⟩ := jumpTo_next h
  · exact .raises _ _ (by decide) (.inl hm)
  · exact .jumps _ _ hsize hip h1 h2

/-- The shape of the conditional jumps. -/
theorem Effect.of_condJumps {imm : Word} {c : Bool} (hm : .invalidJumpAddress ∈ mayRaise i)
    (hsize : ∀ n, i.sizeAfter n = n) (hip : ipAfter s.cf s.ip i = if c = true then imm else s.ip + 1)
    (h : condJump s c imm = .next t) : Effect s i t := by
  obtain ⟨rfl, h⟩ | ⟨rfl, rfl⟩ := condJump_next h
  · exact .of_jumps hm hsize (by simpa using hip) h
  · exact .advances _ hsize (by simpa using hip)

/-- Everything an instruction can do on the way to a next state. -/
theorem exec_next (h : exec i s = .next t) : Effect s i t := by
  cases i with
  | push imm => exact .of_pushes (by simp [mayRaise]) (fun _ => rfl) rfl h
  | pop =>
    simp only [exec, execPop] at h
    split at h <;> cases h
    · exact .raises _ _ (by decide) (by simp [mayRaise])
    · exact .drops (by omega)
  | plus => exact .of_replaces (by simp [mayRaise]) (fun _ => rfl) rfl h
  | minus => exact .of_replaces (by simp [mayRaise]) (fun _ => rfl) rfl h
  | mult => exact .of_replaces (by simp [mayRaise]) (fun _ => rfl) rfl h
  | div =>
    simp only [exec, execDiv] at h
    obtain ⟨_, rfl⟩ | ⟨h1, _, h⟩ := withTopTwo_next h
    · exact .raises _ _ (by decide) (by simp [mayRaise])
    · split at h
      · cases h; exact .raises _ _ (by decide) (by simp [mayRaise])
      · obtain ⟨h3, rfl⟩ := replaceTopTwo_next h
        exact .replaces _ _ (fun _ => rfl) rfl h1 h3
  | move imm ra => exact .of_sets (f := fun _ => imm) (by simp [Instr.regs]) (fun _ => rfl) rfl rfl h
  | load ra =>
    exact .of_popsInto (f := fun _ v => v) (by simp [Instr.regs]) (by simp [mayRaise]) (fun _ => rfl) rfl rfl h
  | unload ra =>
    obtain ⟨_, _, h⟩ | ⟨hn, rfl⟩ := withReg_next h
    · exact .of_pushes (by simp [mayRaise]) (fun _ => rfl) rfl h
    · exact .of_absent (by simp [Instr.regs]) hn
  | append ra =>
    exact .of_popsInto (f := aluAdd) (by simp [Instr.regs]) (by simp [mayRaise]) (fun _ => rfl) rfl rfl h
  | appendVal imm ra =>
    exact .of_sets (f := fun x => aluAdd x imm) (by simp [Instr.regs]) (fun _ => rfl) rfl rfl h
  | decrement ra =>
    exact .of_popsInto (f := aluSub) (by simp [Instr.regs]) (by simp [mayRaise]) (fun _ => rfl) rfl rfl h
  | decrementVal imm ra =>
    exact .of_sets (f := fun x => aluSub x imm) (by simp [Instr.regs]) (fun _ => rfl) rfl rfl h
  | cmp ra rb =>
    obtain ⟨_, _, h⟩ | ⟨hn, rfl⟩ := withReg_next h
    · obtain ⟨_, _, h⟩ | ⟨hn, rfl⟩ := withReg_next h
      · cases h; exact .flags _ _ (fun _ => rfl) rfl rfl
      · exact .of_absent (by simp [Instr.regs]) hn
    · exact .of_absent (by simp [Instr.regs]) hn
  | cmpVal imm ra =>
    obtain ⟨_, _, h⟩ | ⟨hn, rfl⟩ := withReg_next h
    · cases h; exact .flags _ _ (fun _ => rfl) rfl rfl
    · exact .of_absent (by simp [Instr.regs]) hn
  | jump imm => exact .of_jumps (by simp [mayRaise]) (fun _ => rfl) rfl h
  | jeq imm => exact .of_condJumps (by simp [mayRaise]) (fun _ => rfl) (by simp only [ipAfter]; cases s.cf <;> rfl) h
  | jne imm => exact .of_condJumps (by simp [mayRaise]) (fun _ => rfl) (by simp only [ipAfter]; cases s.cf <;> rfl) h
  | jgr imm => exact .of_condJumps (by simp [mayRaise]) (fun _ => rfl) (by simp only [ipAfter]; cases s.cf <;> rfl) h
  | jge imm => exact .of_condJumps (by simp [mayRaise]) (fun _ => rfl) (by simp only [ipAfter]; cases s.cf <;> rfl) h
  | jle imm => exact .of_condJumps (by simp [mayRaise]) (fun _ => rfl) (by simp only [ipAfter]; cases s.cf <;> rfl) h
  | jls imm => exact .of_condJumps (by simp [mayRaise]) (fun _ => rfl) (by simp only [ipAfter]; cases s.cf <;> rfl) h
  | label => cases h; exact .advances _ (fun _ => rfl) rfl
  | halt => cases h; exact .halts
  | peek =>
    obtain ⟨_, rfl⟩ | ⟨_, _, h⟩ := withTop_next h
    · exact .raises _ _ (by decide) (by simp [mayRaise])
    · cases h; exact .outputs _ _ (fun _ => rfl) rfl rfl
  | returnReg ra =>
    obtain ⟨_, _, h⟩ | ⟨hn, rfl⟩ := withReg_next h
    · cases h; exact .outputs _ _ (fun _ => rfl) rfl rfl
    · exact .of_absent (by simp [Instr.regs]) hn

end Sys2Proof.Machine
end

