-- ==== Sys2Proof/Laws/Flags.lean ====
section
/-!
SUPPORT. The compare flag: when each condition holds, by the flag's number, and what the three-way comparison answers.
-/

namespace Sys2Proof.Machine

variable (f : CompareFlag) (a b : Word)

/-- The flag is determined by its number. -/
theorem CompareFlag.toInt_inj {f g : CompareFlag} : f.toInt = g.toInt ↔ f = g := by
  cases f <;> cases g <;> decide

/-- Negating the flag negates its number. -/
@[simp] theorem CompareFlag.neg_toInt : f.neg.toInt = -f.toInt := by cases f <;> rfl

@[simp] theorem CompareFlag.isEq_iff : f.isEq = true ↔ f.toInt = 0 := by cases f <;> decide
@[simp] theorem CompareFlag.isNe_iff : f.isNe = true ↔ f.toInt ≠ 0 := by cases f <;> decide
@[simp] theorem CompareFlag.isGr_iff : f.isGr = true ↔ f.toInt = 1 := by cases f <;> decide
@[simp] theorem CompareFlag.isGe_iff : f.isGe = true ↔ 0 ≤ f.toInt := by cases f <;> decide
@[simp] theorem CompareFlag.isLe_iff : f.isLe = true ↔ f.toInt ≤ 0 := by cases f <;> decide
@[simp] theorem CompareFlag.isLs_iff : f.isLs = true ↔ f.toInt = -1 := by cases f <;> decide

/-- The three-way comparison answers +1 exactly for greater. -/
theorem cmp3_eq_plusOne : cmp3 a b = .plusOne ↔ b.toInt < a.toInt := by
  unfold cmp3; split <;> [simp; split <;> simp] <;> omega

/-- The three-way comparison answers -1 exactly for less. -/
theorem cmp3_eq_minusOne : cmp3 a b = .minusOne ↔ a.toInt < b.toInt := by
  unfold cmp3; split <;> [simp; split <;> simp] <;> omega

/-- The three-way comparison answers 0 exactly for equal. -/
theorem cmp3_eq_zero : cmp3 a b = .zero ↔ a = b := by
  rw [← BitVec.toInt_inj]
  unfold cmp3; split <;> [simp; split <;> simp] <;> omega

end Sys2Proof.Machine
end

