-- ==== Sys2Proof/Laws/PerInstr.lean ====
section
/-!
SUPPORT. The family of lemmas with one lemma per instruction: an encoder writes the instruction's opcode number
and zeros in every field its format does not use (`spec/30_encoding.md` R50).
-/

namespace Sys2Proof.Laws.EncodeFields

/-- The canonical word of `i` has the opcode of `i`, no second register unless `i` names two, and no first register
unless it names one. -/
def Statement (i : Instr) : Prop :=
  opField (encode i) = i.opcode ∧ (i.regs.length < 2 → rbField (encode i) = 0) ∧
    (i.regs = [] → raField (encode i) = 0)

theorem push (imm : Word) : Statement (.push imm) := by
  simp [Statement, encode, encodeI, Instr.regs]

theorem pop : Statement .pop := by
  simp [Statement, encode, encodeN, Instr.regs]

theorem plus : Statement .plus := by
  simp [Statement, encode, encodeN, Instr.regs]

theorem minus : Statement .minus := by
  simp [Statement, encode, encodeN, Instr.regs]

theorem mult : Statement .mult := by
  simp [Statement, encode, encodeN, Instr.regs]

theorem div : Statement .div := by
  simp [Statement, encode, encodeN, Instr.regs]

theorem move (imm : Word) (ra : Reg) : Statement (.move imm ra) := by
  simp [Statement, encode, encodeIR, Instr.regs]

theorem load (ra : Reg) : Statement (.load ra) := by
  simp [Statement, encode, encodeR, Instr.regs]

theorem unload (ra : Reg) : Statement (.unload ra) := by
  simp [Statement, encode, encodeR, Instr.regs]

theorem append (ra : Reg) : Statement (.append ra) := by
  simp [Statement, encode, encodeR, Instr.regs]

theorem appendVal (imm : Word) (ra : Reg) : Statement (.appendVal imm ra) := by
  simp [Statement, encode, encodeIR, Instr.regs]

theorem decrement (ra : Reg) : Statement (.decrement ra) := by
  simp [Statement, encode, encodeR, Instr.regs]

theorem decrementVal (imm : Word) (ra : Reg) : Statement (.decrementVal imm ra) := by
  simp [Statement, encode, encodeIR, Instr.regs]

theorem cmp (ra : Reg) (rb : Reg) : Statement (.cmp ra rb) := by
  simp [Statement, encode, encodeRR, Instr.regs]

theorem cmpVal (imm : Word) (ra : Reg) : Statement (.cmpVal imm ra) := by
  simp [Statement, encode, encodeIR, Instr.regs]

theorem jump (imm : Word) : Statement (.jump imm) := by
  simp [Statement, encode, encodeI, Instr.regs]

theorem jeq (imm : Word) : Statement (.jeq imm) := by
  simp [Statement, encode, encodeI, Instr.regs]

theorem jne (imm : Word) : Statement (.jne imm) := by
  simp [Statement, encode, encodeI, Instr.regs]

theorem jgr (imm : Word) : Statement (.jgr imm) := by
  simp [Statement, encode, encodeI, Instr.regs]

theorem jge (imm : Word) : Statement (.jge imm) := by
  simp [Statement, encode, encodeI, Instr.regs]

theorem jle (imm : Word) : Statement (.jle imm) := by
  simp [Statement, encode, encodeI, Instr.regs]

theorem jls (imm : Word) : Statement (.jls imm) := by
  simp [Statement, encode, encodeI, Instr.regs]

theorem label : Statement .label := by
  simp [Statement, encode, encodeN, Instr.regs]

theorem halt : Statement .halt := by
  simp [Statement, encode, encodeN, Instr.regs]

theorem peek : Statement .peek := by
  simp [Statement, encode, encodeN, Instr.regs]

theorem returnReg (ra : Reg) : Statement (.returnReg ra) := by
  simp [Statement, encode, encodeR, Instr.regs]

end Sys2Proof.Laws.EncodeFields
end

