-- ==== Sys2Proof/Laws/Ports.lean ====
section
/-!
SUPPORT. The result of a run: when there is one, and what the operations that end, fail, begin or abandon a run leave.
-/

namespace Sys2Proof.Machine

variable {s : State}

/-- There is a result exactly in an idle core that has halted or holds an error, and it is `(out, err)`. -/
theorem State.runResult_eq_some {r : Word × ErrorCode} :
    s.runResult = some r ↔ s.active = false ∧ (s.halted = true ∨ s.err ≠ .noError) ∧ r = (s.out, s.err) := by
  unfold State.runResult
  cases s.active <;> cases s.halted <;> by_cases h : s.err = .noError <;> simp [h, eq_comm]

/-- No result while a run is active. -/
theorem State.runResult_of_active (h : s.active = true) : s.runResult = none := by simp [State.runResult, h]

/-- A run that ends because the core has halted has its `out` and `err` for a result. -/
theorem State.endRun_runResult (h : s.halted = true) : s.endRun.runResult = some (s.out, s.err) :=
  State.runResult_eq_some.mpr ⟨rfl, .inl h, rfl⟩

/-- A run that ends in an error has its `out` and that error for a result. -/
theorem State.raise_runResult {e : ErrorCode} (h : e ≠ .noError) : (s.raise e).runResult = some (s.out, e) :=
  State.runResult_eq_some.mpr ⟨rfl, .inr h, rfl⟩

/-- A START leaves no result of an earlier run. -/
@[simp] theorem State.beginRun_runResult : s.beginRun.runResult = none := State.runResult_of_active rfl

/-- A reset leaves no result: a run it abandons has none. -/
@[simp] theorem State.afterReset_runResult (n : Nat) (p : Bool) (c : Nat) (pins : Pins) (k : Nat) :
    (State.afterReset n p c pins k).runResult = none := rfl

end Sys2Proof.Machine
end

