-- ==== Sys2Proof/Tests/Slice0.lean ====
section
/-!
SUPPORT. Tests, with their expected results from spec/95_test_vectors.md (the vector's name stands beside each), spec/30_encoding.md
(words) or by hand from the rule named; the smoke tests of WellFormed; and for each statement with hypotheses a
witness: concrete states and operands that meet them, clause by clause, at the boundaries.
-/

namespace Sys2Proof.Tests

open Sys2Proof.Machine

/-! ### WellFormed refuses an ill-formed term of each kind -/

theorem test_refuses_absent_ra : ¬ WellFormed 4 (.load .RE) := by decide
theorem test_refuses_absent_rb : ¬ WellFormed 4 (.cmp .RA .RE) := by decide
theorem test_accepts_last_register : WellFormed 4 (.load .RD) ∧ WellFormed 8 (.cmp .RH .RE) := by decide
theorem test_refuses_register_counts : ¬ WellFormedRegisterCount 3 ∧ ¬ WellFormedRegisterCount 9 := by decide
theorem test_refuses_capacity_zero : ¬ WellFormedCapacity 0 := by decide
theorem test_refuses_long_program (p : List IWord) (h : p.length = 2 ^ 63) : ¬ WellFormedProgram p := by
  rw [WellFormedProgram, h]; exact lt_irrefl _

/-! ### Decoding: one word of each constructor, written out from R45 and R49 -/

theorem test_decode_stack :
    decode 4 0x0100_8000000000000000 = .ok (.push 0x8000000000000000) ∧
    decode 4 0x02FF_123456789ABCDEF0 = .ok .pop := by decide

theorem test_decode_arith :
    decode 4 0x0300_0000000000000000 = .ok .plus ∧ decode 4 0x0400_0000000000000000 = .ok .minus ∧
    decode 4 0x0500_0000000000000000 = .ok .mult ∧ decode 4 0x0600_0000000000000000 = .ok .div := by decide

theorem test_decode_register :
    decode 4 0x0720_0000000000000007 = .ok (.move 7 .RC) ∧ decode 4 0x0810_0000000000000000 = .ok (.load .RB) ∧
    decode 4 0x0910_0000000000000000 = .ok (.unload .RB) ∧ decode 4 0x0A10_0000000000000000 = .ok (.append .RB) ∧
    decode 4 0x0B20_FFFFFFFFFFFFFFFB = .ok (.appendVal (-5) .RC) ∧
    decode 4 0x0C00_0000000000000000 = .ok (.decrement .RA) ∧
    decode 4 0x0D00_0000000000000001 = .ok (.decrementVal 1 .RA) := by decide

theorem test_decode_compare :
    decode 4 0x0E01_0000000000000000 = .ok (.cmp .RA .RB) ∧
    decode 4 0x0F20_0000000000000005 = .ok (.cmpVal 5 .RC) := by decide

theorem test_decode_control :
    decode 4 0x1000_FFFFFFFFFFFFFFFF = .ok (.jump (-1)) ∧ decode 4 0x1100_0000000000000002 = .ok (.jeq 2) ∧
    decode 4 0x1200_0000000000000063 = .ok (.jne 99) ∧ decode 4 0x1300_0000000000000003 = .ok (.jgr 3) ∧
    decode 4 0x1400_0000000000000003 = .ok (.jge 3) ∧ decode 4 0x1500_0000000000000003 = .ok (.jle 3) ∧
    decode 4 0x1600_0000000000000063 = .ok (.jls 99) ∧ decode 4 0x1700_0000000000000000 = .ok .label ∧
    decode 4 0x1800_0000000000000000 = .ok .halt := by decide

theorem test_decode_output :
    decode 4 0x1900_0000000000000000 = .ok .peek ∧
    decode 4 0x1A30_0000000000000000 = .ok (.returnReg .RD) := by decide

/-- V-CT13 to V-CT16, V-RG15, V-RG16. -/
theorem test_decode_unknown :
    decode 4 0 = .error (.illegalOpcode 0) ∧ decode 4 0x1B00_0000000000000000 = .error (.illegalOpcode 0x1B) ∧
    decode 4 0xFF00_0000000000000000 = .error (.illegalOpcode 0xFF) ∧
    decode 4 0x0E04_0000000000000000 = .error (.noSuchRegister 4) ∧
    decode 4 0x0840_0000000000000000 = .error (.noSuchRegister 4) ∧
    decode 8 0x0840_0000000000000000 = .ok (.load .RE) ∧
    decode 8 0x0880_0000000000000000 = .error (.noSuchRegister 8) := by decide

/-- The canonical examples of spec/opcode_table.json, encoded and read by the host's entry. -/
theorem test_encode_words :
    encode (.push 5) = 0x01000000000000000005 ∧ encode (.move 5 .RB) = 0x07100000000000000005 ∧
    encode (.cmp .RA .RB) = 0x0E010000000000000000 ∧ encode (.returnReg .RB) = 0x1A100000000000000000 ∧
    decodeTableWord 80 0x0B100000000000000005 = some (.appendVal 5 .RB) ∧
    decodeTableWord 80 0x1B100000000000000005 = none := by decide

/-! ### One step on a small state -/

/-- A running core with the given registers, stack and capacity, at index `ip` of a program of `n` zero words. -/
def core (regs stack : List Word) (cap : Nat) (ip : BitVec 64 := 0) (n : Nat := 3) : State :=
  { State.reset with
    regs := regs
    slots := (List.range stack.length).zip stack
    size := stack.length
    cap := cap
    ip := ip
    active := true
    pins := { State.reset.pins with program := List.replicate n 0 } }

/-- The outcome is a next state with the property. -/
def goesTo (r : Result) (p : State → Bool) : Bool :=
  match r with
  | .next t => p t
  | .fault _ => false
  | .refused _ => false

/-- The outcome is the error with the given code, everything else as it was (R91). -/
def raises (r : Result) (s : State) (code : BitVec 4) : Bool :=
  goesTo r (fun t => t.errPort == code && t == { s with err := t.err, active := false })

/-- V-ST5, V-ST2. -/
theorem test_push :
    goesTo (exec (.push 0x8000000000000000) (core [] [] 1))
      (fun t => t.slots == [(0, 0x8000000000000000)] && t.size == 1 && t.ip == 1) = true ∧
    raises (exec (.push 3) (core [] [1, 2] 2)) (core [] [1, 2] 2) 1 = true := by decide

/-- V-ST4, V-ST3. -/
theorem test_pop :
    goesTo (exec .pop (core [] [2, 3] 2)) (fun t => t.slots == [(0, 2), (1, 3)] && t.size == 1 && t.ip == 1) = true ∧
    raises (exec .pop (core [] [] 2)) (core [] [] 2) 3 = true := by decide

/-- V-AR2, V-AR26, V-AR21. -/
theorem test_plus :
    goesTo (exec .plus (core [] [0x7FFFFFFFFFFFFFFF, 1] 2)) (fun t => t.slot 0 == 0x8000000000000000) = true ∧
    goesTo (exec .plus (core [] [9, 2, 3] 3)) (fun t => t.slots == [(0, 9), (1, 5), (2, 3)] && t.size == 2) = true ∧
    raises (exec .plus (core [] [] 2)) (core [] [] 2) 2 = true := by decide

/-- V-AR6, V-AR8. -/
theorem test_minus :
    goesTo (exec .minus (core [] [3, 5] 2)) (fun t => t.slot 0 == -2 && t.size == 1) = true ∧
    goesTo (exec .minus (core [] [0, 0x8000000000000000] 2)) (fun t => t.slot 0 == 0x8000000000000000) = true := by
  decide

/-- V-AR11, V-AR10. -/
theorem test_mult :
    goesTo (exec .mult (core [] [3037000500, 3037000500] 2)) (fun t => t.slot 0 == 0x8000000008ABC290) = true ∧
    goesTo (exec .mult (core [] [0x8000000000000000, -1] 2)) (fun t => t.slot 0 == 0x8000000000000000) = true := by
  decide

/-- V-AR14, V-AR15, V-AR17, V-AR19. -/
theorem test_div :
    goesTo (exec .div (core [] [-7, 2] 2)) (fun t => t.slot 0 == -3 && t.size == 1 && t.ip == 1) = true ∧
    goesTo (exec .div (core [] [7, -2] 2)) (fun t => t.slot 0 == -3) = true ∧
    goesTo (exec .div (core [] [-1, 2] 2)) (fun t => t.slot 0 == 0) = true ∧
    goesTo (exec .div (core [] [0x8000000000000000, -1] 2)) (fun t => t.slot 0 == 0x8000000000000000) = true := by
  decide

/-- V-AR18, V-AR20. -/
theorem test_div_errors :
    raises (exec .div (core [] [5, 0] 2)) (core [] [5, 0] 2) 7 = true ∧
    raises (exec .div (core [] [0] 2)) (core [] [0] 2) 2 = true := by decide

/-- V-RG1, V-RG2. -/
theorem test_move :
    goesTo (exec (.move (-1) .RA) (core [9, 0, 0, 0] [] 1)) (fun t => t.regs == [-1, 0, 0, 0] && t.ip == 1) = true ∧
    goesTo (exec (.move 7 .RC) (core [0, 0, 0, 0] [1] 1)) (fun t => t.regs == [0, 0, 7, 0] && t.size == 1) = true := by
  decide

/-- V-RG3, V-RG4. -/
theorem test_load :
    goesTo (exec (.load .RA) (core [1, 0, 0, 0] [8, 5] 2)) (fun t => t.regs == [5, 0, 0, 0] && t.size == 1) = true ∧
    raises (exec (.load .RA) (core [1, 0, 0, 0] [] 2)) (core [1, 0, 0, 0] [] 2) 3 = true := by decide

/-- V-RG5, V-RG6. -/
theorem test_unload :
    goesTo (exec (.unload .RB) (core [0, 8, 0, 0] [] 2))
      (fun t => t.slots == [(0, 8)] && t.size == 1 && t.regs == [0, 8, 0, 0]) = true ∧
    raises (exec (.unload .RB) (core [0, 8, 0, 0] [4] 1)) (core [0, 8, 0, 0] [4] 1) 1 = true := by decide

/-- V-RG7, V-RG8. -/
theorem test_append :
    goesTo (exec (.append .RB) (core [0, 1, 0, 0] [1, 2] 2)) (fun t => t.regs == [0, 3, 0, 0] && t.size == 1) = true ∧
    raises (exec (.append .RB) (core [0, 1, 0, 0] [] 2)) (core [0, 1, 0, 0] [] 2) 3 = true := by decide

/-- V-RG9, V-RG10. -/
theorem test_appendVal :
    goesTo (exec (.appendVal 1 .RC) (core [0, 0, 0x7FFFFFFFFFFFFFFF, 0] [] 1))
      (fun t => t.regs == [0, 0, 0x8000000000000000, 0]) = true ∧
    goesTo (exec (.appendVal (-5) .RC) (core [0, 0, 4, 0] [] 1)) (fun t => t.regs == [0, 0, -1, 0]) = true := by decide

/-- V-RG11, V-RG12. -/
theorem test_decrement :
    goesTo (exec (.decrement .RA) (core [10, 0, 0, 0] [3] 1)) (fun t => t.regs == [7, 0, 0, 0] && t.size == 0) = true ∧
    raises (exec (.decrement .RA) (core [10, 0, 0, 0] [] 1)) (core [10, 0, 0, 0] [] 1) 3 = true := by decide

/-- V-RG14, V-RG13. -/
theorem test_decrementVal :
    goesTo (exec (.decrementVal 1 .RA) (core [0x8000000000000000, 0, 0, 0] [] 1))
      (fun t => t.regs == [0x7FFFFFFFFFFFFFFF, 0, 0, 0]) = true ∧
    goesTo (exec (.decrementVal 1 .RA) (core [4, 0, 0, 0] [] 1)) (fun t => t.regs == [3, 0, 0, 0]) = true := by decide

/-- V-CM1, V-CM4, V-CM6, V-CM7. -/
theorem test_cmp :
    goesTo (exec (.cmp .RA .RB) (core [5, 3, 0, 0] [] 1)) (fun t => t.cf == .minusOne && t.ip == 1) = true ∧
    goesTo (exec (.cmp .RA .RB) (core [-1, 1, 0, 0] [] 1)) (fun t => t.cf == .plusOne) = true ∧
    goesTo (exec (.cmp .RA .RB) (core [0x8000000000000000, 0x7FFFFFFFFFFFFFFF, 0, 0] [] 1))
      (fun t => t.cf == .plusOne) = true ∧
    goesTo (exec (.cmp .RA .RA) (core [7, 1, 0, 0] [] 1)) (fun t => t.cf == .zero) = true := by decide

/-- V-CM8, V-CM11, V-CM12. -/
theorem test_cmpVal :
    goesTo (exec (.cmpVal 3 .RA) (core [5, 0, 0, 0] [] 1)) (fun t => t.cf == .plusOne && t.ip == 1) = true ∧
    goesTo (exec (.cmpVal 1 .RA) (core [-1, 0, 0, 0] [] 1)) (fun t => t.cf == .minusOne) = true ∧
    goesTo (exec (.cmpVal 0x8000000000000000 .RA) (core [0x7FFFFFFFFFFFFFFF, 0, 0, 0] [] 1))
      (fun t => t.cf == .plusOne) = true := by decide

/-- V-CT1, V-CT2, V-CT3, V-CT4. -/
theorem test_jump :
    goesTo (exec (.jump 2) (core [] [] 1)) (fun t => t.ip == 2) = true ∧
    raises (exec (.jump 3) (core [] [] 1)) (core [] [] 1) 4 = true ∧
    raises (exec (.jump (-1)) (core [] [] 1)) (core [] [] 1) 4 = true ∧
    goesTo (exec (.jump 0) (core [] [] 1)) (fun t => t.ip == 0) = true := by decide

/-- `ip` after the jump to 2 from index 0 with the flag at -1, 0 and +1. -/
def ipsAfter (i : Instr) : List (BitVec 64) :=
  [CompareFlag.minusOne, .zero, .plusOne].map (fun f =>
    match exec i { core [] [] 1 with cf := f } with
    | .next t => t.ip
    | .fault _ => 99
    | .refused _ => 99)

/-- The truth table of spec/95_test_vectors.md section 2.5. -/
theorem test_conditional_jumps :
    ipsAfter (.jeq 2) = [1, 2, 1] ∧ ipsAfter (.jne 2) = [2, 1, 2] ∧ ipsAfter (.jgr 2) = [1, 1, 2] ∧
    ipsAfter (.jge 2) = [1, 2, 2] ∧ ipsAfter (.jle 2) = [2, 2, 1] ∧ ipsAfter (.jls 2) = [2, 1, 1] := by decide

/-- V-CT8, V-CT9. -/
theorem test_target_checked_only_when_taken :
    goesTo (exec (.jls 99) (core [] [] 1)) (fun t => t.ip == 1 && t.active) = true ∧
    raises (exec (.jls 99) { core [] [] 1 with cf := .minusOne }) { core [] [] 1 with cf := .minusOne } 4 = true := by
  decide

/-- V-CT10, V-CT11. -/
theorem test_label_halt :
    goesTo (exec .label (core [] [] 1)) (fun t => t == { core [] [] 1 with ip := 1 }) = true ∧
    goesTo (exec .halt (core [] [] 1 2)) (fun t => t == { core [] [] 1 2 with halted := true }) = true := by decide

/-- V-OUT1, V-OUT2, V-OUT3. -/
theorem test_output :
    goesTo (exec .peek (core [] [5] 1)) (fun t => t.out == 5 && t.size == 1 && t.ip == 1) = true ∧
    raises (exec .peek { core [] [] 1 with out := 9 }) { core [] [] 1 with out := 9 } 3 = true ∧
    goesTo (exec (.returnReg .RD) { core [0, 0, 0, 42] [] 1 with out := 5 })
      (fun t => t.out == 42 && !t.halted && t.ip == 1) = true := by decide

/-! ### The sequencer -/

/-- V-CT12, V-CT13: past the end, and the all-zero word. -/
theorem test_loop_errors :
    raises (step (core [] [] 1 1 1)) (core [] [] 1 1 1) 5 = true ∧
    raises (step (core [0, 0, 0, 0] [] 1 0 1)) (core [0, 0, 0, 0] [] 1 0 1) 8 = true := by decide

/-- V-RS1. -/
theorem test_reset_event :
    goesTo (step { core [1, 2, 3, 4] [5] 2 1 with
        cf := .plusOne, halted := true, out := 7,
        pins := { State.reset.pins with rst := true, start := true, cap := 4 } })
      (fun t => t.regs == [0, 0, 0, 0] && t.cf == .zero && t.size == 0 && t.cap == 4 && t.ip == 0 && !t.halted &&
        t.out == 0 && t.err == .noError && !t.active) = true := by decide

/-- The state that program P8a leaves, with START asserted again and `OUT_INIT = 77` (V-RS2). -/
def afterP8a : State :=
  { core [0, 0, 0, 0] [1] 2 2 with
    halted := true
    active := false
    out := 1
    pins := { State.reset.pins with start := true, outInit := 77, program := [0x1800_0000000000000000] } }

/-- V-RS2. -/
theorem test_second_run_of_a_halted_core :
    goesTo (step afterP8a) (fun t => t.active && t.ip == 0 && t.out == 77 &&
      goesTo (step t) (fun u => u == { t with active := false })) = true := by decide

/-- R119, R120: no result before a run (the reset state) or after a reset that abandons one; `out` and `err` after V-RS2's
run and after the failed pre-flight of P6. -/
theorem test_runResult :
    State.reset.runResult = none ∧
    goesTo (step { core [0, 0, 0, 0] [1] 2 with
      pins := { State.reset.pins with rst := true, cap := 2 } }) (fun t => t.runResult == none) = true ∧
    goesTo (step afterP8a) (fun t => t.runResult == none &&
      goesTo (step t) (fun u => u.runResult == some (77, .noError))) = true ∧
    goesTo (step { State.reset with
        preflight := true,
        pins := { State.reset.pins with start := true, outInit := 9, program := [0x0100_0000000000000001] } })
      (fun t => t.runResult == some (9, .programWithoutHalt)) = true := by decide

/-- P6 with PREFLIGHT on: START fails before any step. -/
theorem test_preflight :
    goesTo (step { State.reset with
        preflight := true,
        pins := { State.reset.pins with start := true, program := [0x0100_0000000000000001] } })
      (fun t => t.errPort == 6 && !t.active && t.ip == 0 && t.size == 0 && t.out == 0) = true := by decide

/-- The host's entry: the placed word is the next instruction executed. -/
theorem test_withFetchWord :
    goesTo (step (State.reset.withFetchWord 80 0x01000000000000000005))
      (fun t => t.slots == [(0, 5)] && t.size == 1 && t.ip == 1) = true ∧
    goesTo (step (State.reset.withFetchWord 80 0x18000000000000000000)) (fun t => t.halted) = true := by decide

/-! ### Witnesses: the hypotheses of each statement are met -/

/-- A running core whose program has one word. -/
def running (w : IWord) : State :=
  { core [1, 2, 3, 4] [5, 6] 3 0 0 with pins := { State.reset.pins with program := [w] } }

/-- An idle core with START asserted. -/
def starting (program : List IWord) : State :=
  { State.reset with pins := { State.reset.pins with start := true, program := program } }

theorem witness_DecodeEncodeRoundTrip : WellFormed 4 (.cmp .RD .RA) ∧ WellFormed 8 (.move (-1) .RH) := by decide

theorem witness_EncodeOfDecodedIsCanonicalWord : decode 4 0x083F_0000000000000001 = .ok (.load .RD) := by decide

theorem witness_UnusedFieldsAreIgnored :
    decode 4 0x0230_0000000000000000 = .ok .pop ∧
    (0x02FF_123456789ABCDEF0 : IWord) &&& Instr.usedBits .pop = 0x0230_0000000000000000 &&& Instr.usedBits .pop := by
  decide

theorem witness_UnknownWordsAreExactlyTheIllegalOnes : 4 ≤ 8 ∧ 8 ≤ 8 := by decide

theorem witness_StepRunsTheDecodedInstruction :
    let s := running 0x0200_0000000000000000
    s.pins.rst = false ∧ s.active = true ∧ s.halted = false ∧
    s.pins.program[s.ip.toNat]? = some 0x0200_0000000000000000 ∧ decode s.nreg 0x0200_0000000000000000 = .ok .pop := by
  decide

theorem witness_RunLoopTestsInOrder :
    let s := running 0x1B00_0000000000000000
    s.pins.rst = false ∧ s.active = true ∧ s.halted = false ∧ { s with halted := true }.halted = true ∧
    { s with ip := 1 }.progLen ≤ ({ s with ip := 1 }).ip.toNat ∧
    s.pins.program[s.ip.toNat]? = some 0x1B00_0000000000000000 ∧
    decode s.nreg 0x1B00_0000000000000000 = .error (.illegalOpcode 0x1B) ∧
    decode s.nreg 0x1A00_0000000000000000 = .ok (.returnReg .RA) := by decide

theorem witness_IdleCoreHoldsItsState :
    State.reset.pins.rst = false ∧ State.reset.active = false ∧ State.reset.pins.start = false := by decide

/-- There are programs of any length. -/
theorem exists_program (n : Nat) : ∃ p : List IWord, p.length = n := ⟨List.replicate n 0, List.length_replicate⟩

/-- `N` of an idle core with START asserted. -/
theorem starting_progLen (p : List IWord) : (starting p).progLen = p.length := rfl

/-- A running core with reset asserted and `cap = c`. -/
def resetting (c : Word) : State :=
  { running 0 with pins := { State.reset.pins with rst := true, cap := c } }

theorem witness_ResetGivesTheResetValues :
    (resetting 1).pins.rst = true ∧ (resetting 1).pins.cap ≠ 0 ∧ Reg.RD.index < (resetting 1).nreg := by decide

theorem witness_StartBeginsTheRun :
    let s := starting [0, 0x18FF_0000000000000001]
    let p := { starting [0x1900_0000000000000018] with preflight := true }
    (s.pins.rst = false ∧ s.active = false ∧ s.pins.start = true ∧ s.progLen < 2 ^ 63 ∧ s.preflight = false ∧
      ∃ w ∈ s.pins.program, w.extractLsb' 72 8 = 0x18#8) ∧
    (p.pins.rst = false ∧ p.active = false ∧ p.pins.start = true ∧ p.progLen < 2 ^ 63 ∧ p.preflight = true ∧
      ∀ w ∈ p.pins.program, w.extractLsb' 72 8 ≠ 0x18#8) :=
  ⟨⟨rfl, rfl, rfl, by decide, rfl, 0x18FF_0000000000000001, by decide, by decide⟩,
    ⟨rfl, rfl, rfl, by decide, rfl, fun w hw => by rw [List.mem_singleton.mp hw]; decide⟩⟩

theorem witness_EventPrecedence :
    (resetting 1).pins.rst = true ∧ (resetting 1).pins.cap ≠ 0 ∧
    (running 0x1700_0000000000000000).pins.rst = false ∧ (running 0x1700_0000000000000000).active = true ∧
    step (running 0x1700_0000000000000000) = .next (running 0x1700_0000000000000000).advance :=
  ⟨by decide, by decide, by decide, by decide, rfl⟩

theorem witness_IllegalHostRequestsAreRefused :
    ((resetting 0).pins.rst = true ∧ (resetting 0).pins.cap = 0) ∧
    ∃ p, (starting p).pins.rst = false ∧ (starting p).active = false ∧ (starting p).pins.start = true ∧
      2 ^ 63 ≤ (starting p).progLen :=
  have ⟨p, hp⟩ := exists_program (2 ^ 63)
  ⟨by decide, p, rfl, rfl, rfl, by rw [starting_progLen, hp]⟩

theorem witness_SecondRunOfAHaltedCoreExecutesNothing :
    (afterP8a.pins.rst = false ∧ afterP8a.active = false ∧ afterP8a.pins.start = true ∧ afterP8a.progLen < 2 ^ 63 ∧
      afterP8a.preflight = false ∧ afterP8a.halted = true) ∧
    ({ afterP8a with preflight := true }.progLen < 2 ^ 63 ∧
      ∃ w ∈ { afterP8a with preflight := true }.pins.program, w.extractLsb' 72 8 = 0x18#8) :=
  ⟨by decide, by decide, 0x1800_0000000000000000, by decide, by decide⟩

/-- A running core about to add meets the invariant. -/
theorem running_inv : (running 0x0300_0000000000000000).Inv :=
  ⟨by decide, by decide, by decide, by decide, by decide, by decide, by decide, by decide, by decide⟩

theorem witness_StepKeepsTheInvariant :
    ∃ t, (running 0x0300_0000000000000000).Inv ∧ step (running 0x0300_0000000000000000) = .next t :=
  ⟨_, running_inv, rfl⟩

theorem witness_SoundStatesNeverStop :
    (running 0x0300_0000000000000000).Inv ∧ (running 0x0300_0000000000000000).HostLegal :=
  ⟨running_inv, ⟨by decide, by decide⟩⟩

theorem witness_HaltedIsSetByHaltAndClearedByReset :
    (∃ t, step { resetting 1 with halted := true } = .next t ∧ t.halted = false) ∧
    (∃ t, step (running 0x1800_0000000000000000) = .next t ∧
      (running 0x1800_0000000000000000).halted = false ∧ t.halted = true) ∧
    ({ running 0 with halted := true }.pins.rst = false ∧ { running 0 with halted := true }.active = true) :=
  ⟨⟨_, rfl, rfl⟩, ⟨_, rfl, rfl, rfl⟩, rfl, rfl⟩

theorem witness_CompareFlagIsWrittenOnlyByCompares :
    ∃ t, step (running 0x0F00_0000000000000000) = .next t ∧ t.cf ≠ (running 0x0F00_0000000000000000).cf :=
  ⟨_, rfl, by decide⟩

theorem witness_CompareFlagIsReadOnlyByConditionalJumps :
    WellFormed (running 0).nreg (.cmp .RA .RD) ∧ Instr.isConditionalJump (.cmp .RA .RD) = false ∧
    ∃ t, exec (.cmp .RA .RD) (running 0) = .next t :=
  ⟨by decide, rfl, _, rfl⟩

theorem witness_OutIsWrittenOnlyByStartPeekAndReturn :
    ∃ t, step (running 0x1900_0000000000000000) = .next t ∧ t.out ≠ (running 0x1900_0000000000000000).out :=
  ⟨_, rfl, by decide⟩

theorem witness_RegistersAreWrittenOnlyAsTabled :
    (∃ t, exec (.load .RA) (running 0) = .next t) ∧ Reg.RB ∉ Instr.writtenRegs (.load .RA) :=
  ⟨⟨_, rfl⟩, by decide⟩

theorem witness_StepKeepsConfigurationAndProgram :
    ∃ t, step (running 0x0300_0000000000000000) = .next t ∧ (running 0x0300_0000000000000000).pins.rst = false :=
  ⟨_, rfl, rfl⟩

theorem witness_AnErrorChangesOnlyErrAndActive :
    ∃ t, (running 0x1000_0000000000000001).pins.rst = false ∧ (running 0x1000_0000000000000001).active = true ∧
      (running 0x1000_0000000000000001).halted = false ∧ step (running 0x1000_0000000000000001) = .next t ∧
      t.err = .invalidJumpAddress :=
  ⟨_, rfl, rfl, rfl, rfl, rfl⟩

theorem witness_OnlyTabledErrorsAreRaised :
    ∃ t, WellFormed (running 0).nreg (.jump 1) ∧ (running 0).active = true ∧ exec (.jump 1) (running 0) = .next t ∧
      t.active = false :=
  ⟨_, by decide, rfl, rfl, rfl⟩

theorem witness_InstructionPointerMovesAsTabled :
    (∃ t, (running 0).active = true ∧ exec .halt (running 0) = .next t ∧ t.active = true) ∧
    (∃ t, exec (.jump 1) (running 0) = .next t ∧ t.active = false) ∧
    (∃ t, afterP8a.pins.rst = false ∧ afterP8a.active = false ∧ afterP8a.pins.start = true ∧
      step afterP8a = .next t) :=
  ⟨⟨_, rfl, rfl, rfl⟩, ⟨_, rfl, rfl⟩, ⟨_, rfl, rfl, rfl, rfl⟩⟩

theorem witness_StackSizeMovesAsTabled :
    (∃ t, (running 0).active = true ∧ exec .plus (running 0) = .next t ∧ t.active = true) ∧
    (∃ t, exec .pop (core [] [] 1) = .next t ∧ t.active = false) :=
  ⟨⟨_, rfl, rfl, rfl⟩, ⟨_, rfl, rfl⟩⟩

theorem witness_StaleSlotsAreUnobservable :
    (core [] [1] 3).SameButStale { core [] [1] 3 with slots := [(0, 1), (1, 9)] } := ⟨rfl, by decide⟩

theorem witness_AbsentRegisterRaisesUnknownOperation : ¬ WellFormed (running 0).nreg (.unload .RE) := by decide

/-- Every code of R90 and every value of the flag is held by some state. -/
theorem witness_PortsShowOnlyLegalCodes :
    (∀ e : ErrorCode, { running 0 with err := e }.err = e) ∧
    [CompareFlag.minusOne, .zero, .plusOne].map (fun f => { running 0 with cf := f }.cf.toInt) = [-1, 0, 1] :=
  ⟨fun _ => rfl, by decide⟩

theorem witness_DebugViewsReadTheState : (1 : BitVec 64).toNat < (running 0).size := by decide

/-- Clause by clause: a run in progress, a reset, a run that halts and one that fails, a START that fails its pre-flight
check, an idle core. -/
theorem witness_RunResultIsGivenWhenTheRunIsOver :
    (running 0).active = true ∧
    (∃ t, (resetting 1).pins.rst = true ∧ step (resetting 1) = .next t) ∧
    (∃ t, { running 0 with halted := true }.pins.rst = false ∧ step { running 0 with halted := true } = .next t ∧
      t.active = false ∧ t.err = .noError) ∧
    (∃ t, step (running 0x1000_0000000000000001) = .next t ∧ t.active = false ∧ t.err = .invalidJumpAddress) ∧
    (∃ t, step { starting [0] with preflight := true } = .next t ∧ t.active = false) ∧
    (∃ t, step State.reset = .next t) :=
  ⟨rfl, ⟨_, rfl, rfl⟩, ⟨_, rfl, rfl, rfl, rfl⟩, ⟨_, rfl, rfl, rfl⟩, ⟨_, rfl, rfl⟩, ⟨_, rfl⟩⟩

/-- A run at its `halt`, before and after executing it. -/
theorem witness_HaltedRunsStandAtAHalt :
    ∃ t u, (running 0x1800_0000000000000000).StandsAtItsHalt ∧ step (running 0x1800_0000000000000000) = .next t ∧
      t.active = true ∧ t.halted = true ∧ t.StandsAtItsHalt ∧ step t = .next u :=
  ⟨_, _, fun _ _ => .inl rfl, rfl, rfl, rfl, fun _ _ => .inl rfl, rfl⟩

theorem witness_AluComputesWrappedResults : (-1 : Word) ≠ 0 := by decide

theorem witness_PushAppendsItsImmediate :
    ((core [] [1] 2).size ≤ (core [] [1] 2).cap ∧ (core [] [1] 2).size < (core [] [1] 2).cap) ∧
    ((core [] [1, 2] 2).size ≤ (core [] [1, 2] 2).cap ∧ (core [] [1, 2] 2).size = (core [] [1, 2] 2).cap) := by decide

theorem witness_PopDropsTheTop : 0 < (core [] [1] 1).size ∧ (core [] [] 1).size = 0 := by decide

theorem witness_PushingBeyondTheCapacityOverflows :
    (core [] [] 2).size = 0 ∧ ([7, 8] : List Word).length ≤ (core [] [] 2).cap ∧
    ([7, 8] : List Word).length = (core [] [] 2).cap := by decide

theorem witness_PlusMinusMultReplaceTheTopTwo :
    ((core [] [1, 2] 2).size ≤ (core [] [1, 2] 2).cap ∧ 2 ≤ (core [] [1, 2] 2).size) ∧
    ((core [] [1] 1).size ≤ (core [] [1] 1).cap ∧ (core [] [1] 1).size < 2) := by decide

theorem witness_DivReplacesTheTopTwo :
    ((core [] [1, 2] 2).size ≤ (core [] [1, 2] 2).cap ∧ 2 ≤ (core [] [1, 2] 2).size ∧ (core [] [1, 2] 2).slot 1 ≠ 0) ∧
    ((core [] [0] 1).size ≤ (core [] [0] 1).cap ∧ (core [] [0] 1).size < 2) ∧
    ((core [] [1, 0] 2).size ≤ (core [] [1, 0] 2).cap ∧ 2 ≤ (core [] [1, 0] 2).size ∧ (core [] [1, 0] 2).slot 1 = 0) := by
  decide

theorem witness_ImmediateRegisterInstructions :
    Reg.RD.index < 4 ∧ (core [1, 2, 3, 4] [] 1).reg? .RD = some 4 := by decide

theorem witness_LoadPopsIntoARegister :
    Reg.RD.index < 4 ∧
    ((core [1, 2, 3, 4] [5] 1).reg? .RD = some 4 ∧ (core [1, 2, 3, 4] [5] 1).size ≤ (core [1, 2, 3, 4] [5] 1).cap ∧
      0 < (core [1, 2, 3, 4] [5] 1).size) ∧
    ((core [1, 2, 3, 4] [] 1).reg? .RD = some 4 ∧ (core [1, 2, 3, 4] [] 1).size ≤ (core [1, 2, 3, 4] [] 1).cap ∧
      (core [1, 2, 3, 4] [] 1).size = 0) := by decide

theorem witness_AppendAndDecrementPopIntoARegister :
    Reg.RA.index < 4 ∧
    ((core [1, 2, 3, 4] [5] 1).reg? .RA = some 1 ∧ (core [1, 2, 3, 4] [5] 1).size ≤ (core [1, 2, 3, 4] [5] 1).cap ∧
      0 < (core [1, 2, 3, 4] [5] 1).size) ∧
    ((core [1, 2, 3, 4] [] 1).reg? .RA = some 1 ∧ (core [1, 2, 3, 4] [] 1).size ≤ (core [1, 2, 3, 4] [] 1).cap ∧
      (core [1, 2, 3, 4] [] 1).size = 0) := by decide

theorem witness_UnloadPushesARegister :
    Reg.RD.index < 4 ∧
    ((core [1, 2, 3, 4] [] 1).reg? .RD = some 4 ∧ (core [1, 2, 3, 4] [] 1).size < (core [1, 2, 3, 4] [] 1).cap) ∧
    ((core [1, 2, 3, 4] [5] 1).reg? .RD = some 4 ∧
      (core [1, 2, 3, 4] [5] 1).size = (core [1, 2, 3, 4] [5] 1).cap) := by decide

theorem witness_UnloadThenLoadRestoresTheState :
    Reg.RD.index < (core [1, 2, 3, 4] [] 1).nreg ∧ (core [1, 2, 3, 4] [] 1).size < (core [1, 2, 3, 4] [] 1).cap := by
  decide

/-- The three relations of the compares: -1 and 1, 1 and -1, 1 and 1. -/
theorem witness_CmpWritesTheInvertedFlag :
    Reg.RC.index < 4 ∧ Reg.RD.index < 4 ∧ (core [-1, 1, 1, 4] [] 1).reg? .RA = some (-1) ∧
    (core [-1, 1, 1, 4] [] 1).reg? .RB = some 1 ∧ (core [-1, 1, 1, 4] [] 1).reg? .RC = some 1 ∧
    (-1 : Word).toInt < (1 : Word).toInt := by decide

theorem witness_CmpValWritesTheFlag :
    Reg.RA.index < 4 ∧ (core [-1, 1, 1, 4] [] 1).reg? .RA = some (-1) ∧
    (core [-1, 1, 1, 4] [] 1).reg? .RB = some 1 ∧ (-1 : Word).toInt < (1 : Word).toInt := by decide

/-- Targets 0 and N-1 are valid, N and -1 are not, with N = 3. -/
theorem witness_JumpGoesToItsTarget :
    0 ≤ (0 : Word).toInt ∧ (2 : Word).toInt < (core [] [] 1).progLen ∧ (-1 : Word).toInt < 0 ∧
    ((core [] [] 1).progLen : Int) ≤ (3 : Word).toInt := by decide

/-- Each condition holds of some flag and fails of some flag; the targets are those of the jump's witness. -/
theorem witness_ConditionalJumpsFollowTheFlag :
    (CompareFlag.zero.toInt = 0 ∧ ¬ CompareFlag.plusOne.toInt = 0) ∧
    (CompareFlag.plusOne.toInt = 1 ∧ ¬ CompareFlag.zero.toInt = 1) ∧
    (0 ≤ CompareFlag.zero.toInt ∧ ¬ 0 ≤ CompareFlag.minusOne.toInt) ∧
    (CompareFlag.zero.toInt ≤ 0 ∧ ¬ CompareFlag.plusOne.toInt ≤ 0) ∧
    (CompareFlag.minusOne.toInt = -1 ∧ ¬ CompareFlag.zero.toInt = -1) ∧
    (core [] [] 1).progLen = 3 := by decide

theorem witness_HaltEndsTheRunAtTheNextStep : (running 0x1800_0000000000000000).AboutToRun .halt :=
  ⟨rfl, rfl, rfl, _, rfl, rfl⟩

theorem witness_PeekCopiesTheTopToOut :
    ((core [] [1] 1).size ≤ (core [] [1] 1).cap ∧ 0 < (core [] [1] 1).size) ∧
    ((core [] [] 1).size ≤ (core [] [] 1).cap ∧ (core [] [] 1).size = 0) := by decide

theorem witness_ReturnCopiesARegisterToOut :
    Reg.RD.index < 4 ∧ (core [1, 2, 3, 4] [] 1).reg? .RD = some 4 := by decide

end Sys2Proof.Tests
end

section
/-!
SUPPORT. What a step and an instruction do to the state as a whole, in the form the whole-machine rules of
`spec/10_state.md` use: which event a clock edge is, what a pass of the run loop comes to, and how each effect of an
instruction moves `halted`, `active` and `ip`.
-/

namespace Sys2Proof.Machine

variable {s t : State} {i : Instr}

/-! ### Which event a clock edge is (R115) -/

/-- A clock edge with reset asserted is a reset. -/
theorem step_of_reset (hrst : s.pins.rst = true) : step s = resetCore s := if_pos hrst

/-- In a run without reset a clock edge is one pass of the run loop. -/
theorem step_of_active (hrst : s.pins.rst = false) (hactive : s.active = true) : step s = runStep s := by
  simp [step, clockEdge, hrst, hactive]

/-- In an idle core without reset a clock edge with START asserted begins a run. -/
theorem step_of_start (hrst : s.pins.rst = false) (hactive : s.active = false) (hstart : s.pins.start = true) :
    step s = startRun s := by
  simp [step, clockEdge, hrst, hactive, hstart]

/-! ### What each event comes to -/

/-- The run loop of a halted core ends the run (R74's first test). -/
theorem runStep_of_halted (h : s.halted = true) : runStep s = .next s.endRun := if_pos h

/-- A pass of the run loop on the way to a next state ends the run of a halted core, raises an error, or executes the
instruction the core is about to run. -/
theorem step_active_next (hrst : s.pins.rst = false) (hactive : s.active = true) (h : step s = .next t) :
    (s.halted = true ∧ t = s.endRun) ∨ (∃ e, e ≠ .noError ∧ t = s.raise e) ∨
      ∃ i, s.AboutToRun i ∧ exec i s = .next t := by
  rw [step_of_active hrst hactive] at h
  obtain hend | ⟨_, _, rfl⟩ | ⟨_, _, _, _, _, rfl⟩ | ⟨w, i, hhalted, hfetch, hdecode, hexec⟩ := runStep_next h
  · exact .inl hend
  · exact .inr (.inl ⟨_, by decide, rfl⟩)
  · exact .inr (.inl ⟨_, by decide, rfl⟩)
  · exact .inr (.inr ⟨i, ⟨hrst, hactive, hhalted, w, hfetch, hdecode⟩, hexec⟩)

/-- A START that goes on begins the run, and at most raises the pre-flight error in the run it began. -/
theorem startRun_next_beginRun (h : startRun s = .next t) :
    t = s.beginRun ∨ t = s.beginRun.raise .programWithoutHalt := by
  obtain ⟨_, ⟨_, _, ht⟩ | ⟨_, ht⟩⟩ := startRun_next h
  · exact .inr ht
  · exact .inl ht

/-- A reset clears `halted`. -/
theorem resetCore_halted (h : resetCore s = .next t) : t.halted = false := by
  obtain ⟨_, rfl⟩ := resetCore_next h
  rfl

/-! ### What an effect leaves of the state -/

/-- Only the effect of `halt` touches `halted`. -/
theorem Effect.halted_eq_or_halts (h : Effect s i t) : t.halted = s.halted ∨ (i = .halt ∧ t = s.setHalted) := by
  cases h with
  | halts => exact .inr ⟨rfl, rfl⟩
  | _ => exact .inl rfl

/-- An instruction raises an error, or the run goes on with `ip` where R14's table puts it. -/
theorem Effect.raises_or_ipAfter (h : Effect s i t) :
    (∃ e, e ≠ .noError ∧ t = s.raise e) ∨ (t.active = s.active ∧ t.ip = ipAfter s.cf s.ip i) := by
  cases h with
  | raises _ e error => exact .inl ⟨e, error, rfl⟩
  | drops => exact .inr ⟨rfl, rfl⟩
  | halts => exact .inr ⟨rfl, rfl⟩
  | pushes _ _ _ ip | replaces _ _ _ ip | popsInto _ _ _ _ _ ip | sets _ _ _ _ _ ip | flags _ _ _ ip
  | outputs _ _ _ ip | jumps _ _ _ ip | advances _ _ ip => exact .inr ⟨rfl, ip.symm⟩

/-- A step without reset leaves `halted` as it was, or it is the step that runs `halt` and sets it. -/
theorem step_halted_eq_or_halts (hrst : s.pins.rst = false) (h : step s = .next t) :
    t.halted = s.halted ∨ (s.AboutToRun .halt ∧ t = s.setHalted) := by
  obtain ⟨hreset, _⟩ | ⟨_, hactive, _⟩ | ⟨_, _, _, hstart⟩ | ⟨_, _, _, rfl⟩ := step_next h
  · simp [hrst] at hreset
  · obtain ⟨_, rfl⟩ | ⟨_, _, rfl⟩ | ⟨i, habout, hexec⟩ := step_active_next hrst hactive h
    · exact .inl rfl
    · exact .inl rfl
    · obtain hsame | ⟨rfl, ht⟩ := (exec_next hexec).halted_eq_or_halts
      · exact .inl hsame
      · exact .inr ⟨habout, ht⟩
  · obtain rfl | rfl := startRun_next_beginRun hstart <;> exact .inl rfl
  · exact .inl rfl

end Sys2Proof.Machine
end

section
/-!
PROOFS. The rules of `spec/10_state.md` about `halted` (R17) and the instruction pointer (R14).
-/

namespace Sys2Proof.Machine

/-- Settles O18: without reset a step leaves `halted` alone or runs `halt`; a reset clears it; the run loop reads it
first. -/
theorem haltedIsSetByHaltAndClearedByReset : Obligations.HaltedIsSetByHaltAndClearedByReset := by
  refine ⟨fun s t h hset hclear => ?cleared, fun s t h hclear hset => ?set, fun s hrst hactive hhalted => ?read⟩
  case cleared =>
    by_contra hrst
    obtain hsame | ⟨_, rfl⟩ := step_halted_eq_or_halts (by simpa using hrst) h
    · simp [hsame, hset] at hclear
    · simp at hclear
  case set =>
    cases hrst : s.pins.rst with
    | true =>
      rw [step_of_reset hrst] at h
      simp [resetCore_halted h] at hset
    | false =>
      obtain hsame | ⟨habout, _⟩ := step_halted_eq_or_halts hrst h
      · simp [hsame, hclear] at hset
      · exact habout
  case read => exact (step_of_active hrst hactive).trans (runStep_of_halted hhalted)

/-- Settles O26, by cases on the effect of the instruction: an error leaves `ip` and ends the run, every other effect
goes on with `ip` as tabled. -/
theorem instructionPointerMovesAsTabled : Obligations.InstructionPointerMovesAsTabled := by
  refine ⟨fun i s t hactive h => ?exec, fun s t hrst hidle hstart h => ?start⟩
  case exec =>
    obtain ⟨e, _, rfl⟩ | ⟨hgoesOn, hip⟩ := (exec_next h).raises_or_ipAfter
    · exact ⟨fun hon => by simp at hon, fun _ => State.raise_ip s e⟩
    · exact ⟨fun _ => hip, fun hoff => by simp [hgoesOn, hactive] at hoff⟩
  case start =>
    rw [step_of_start hrst hidle hstart] at h
    obtain rfl | rfl := startRun_next_beginRun h
    · exact State.beginRun_ip s
    · exact State.raise_ip _ _

end Sys2Proof.Machine
end

section
/-!
SUPPORT. The fields of a word written as a sixteen-bit head and an immediate, and which of its two outcomes a push or a
pop has, with the next state in full.
-/

namespace Sys2Proof

/-- The opcode of a word written as a head and an immediate is the head's upper byte. -/
@[simp] theorem opField_head_append (head : BitVec 16) (imm : Word) :
    opField (head ++ imm) = head.extractLsb' 8 8 := by
  rw [head_append, opField_packWord]

/-- The immediate of a word written as a head and an immediate. -/
@[simp] theorem immField_head_append (head : BitVec 16) (imm : Word) : immField (head ++ imm) = imm := by
  rw [head_append, immField_packWord]

/-- Every word with opcode 1 is a push of its immediate field, whatever NREG is. -/
theorem decode_of_opField_push {w : IWord} (h : opField w = 0x01#8) (nreg : Nat) :
    decode nreg w = .ok (.push (immField w)) := by
  simp [decode, h]

/-- Every word with opcode 2 is a pop, whatever NREG is. -/
theorem decode_of_opField_pop {w : IWord} (h : opField w = 0x02#8) (nreg : Nat) : decode nreg w = .ok .pop := by
  simp [decode, h]

end Sys2Proof

namespace Sys2Proof.Machine

variable {s : State}

/-- A push below the capacity writes the slot at `S`, then moves `S` and `ip` on (R92). -/
theorem pushValue_of_lt (h : s.size < s.cap) (v : Word) :
    pushValue s v = .next ((s.setSlot s.size v).setSize (s.size + 1)).advance := by
  rw [pushValue, if_neg (by omega), memWrite_of_lt h]

/-- A push at the capacity is StackOverflow, before any write (R92). -/
theorem pushValue_of_full (h : s.cap ≤ s.size) (v : Word) : pushValue s v = .next (s.raise .stackOverflow) :=
  if_pos (Nat.lt_succ_of_le h)

/-- The slots after a push: the pushed value at the old `S`, all others as before. -/
theorem State.slot_pushed (v : Word) (n j : Nat) :
    ((s.setSlot s.size v).setSize n).advance.slot j = if j = s.size then v else s.slot j := by
  rw [State.advance_slot_eq, State.setSize_slot_eq, State.slot_setSlot]

/-- A pop of a stack that holds a value moves `S` down and `ip` on, and touches no slot (R57). -/
theorem execPop_of_pos (h : 0 < s.size) : execPop s = .next (s.setSize (s.size - 1)).advance :=
  if_neg h.ne'

/-- A pop of an empty stack is StackEmpty (R57). -/
theorem execPop_of_empty (h : s.size = 0) : execPop s = .next (s.raise .stackEmpty) := if_pos h

end Sys2Proof.Machine
end

section
/-!
PROOFS. The stack instructions (`spec/40_stack.md`): `push` (R56) and `pop` (R57).
-/

namespace Sys2Proof.Machine

/-- Settles O33: `push` is a push of the immediate field, which below the capacity writes only the slot at `S` and at the
capacity raises before it writes. -/
theorem pushAppendsItsImmediate : Obligations.PushAppendsItsImmediate := by
  refine fun imm => ⟨fun nreg => ?decodes, fun s _ => ⟨fun hroom => ?completes, fun hfull => ?overflows⟩⟩
  case decodes =>
    have hop : opField (0x0100#16 ++ imm) = 0x01#8 := by rw [opField_head_append]; decide
    rw [decode_of_opField_push hop, immField_head_append]
  case completes => exact ⟨_, pushValue_of_lt hroom imm, rfl, State.slot_pushed imm _⟩
  case overflows => exact pushValue_of_full hfull.ge imm

/-- Settles O34: `pop` of a stack that holds a value lowers `S` only, and of an empty one raises. -/
theorem popDropsTheTop : Obligations.PopDropsTheTop :=
  ⟨decode_of_opField_pop (by decide), fun _ => ⟨execPop_of_pos, execPop_of_empty⟩⟩

end Sys2Proof.Machine
end

section
/-!
SUPPORT. Decoding a word without operands, the ALU's sum, difference and product as those of the 64-bit vectors
(`spec/41_arith.md` R63), and which of its outcomes a binary operation on the two top slots has (R58).
-/

namespace Sys2Proof

/-- A format without operands uses the opcode field only (R46), so such a word is known by its opcode number. -/
theorem decode_of_operandless {i : Instr} {w : IWord} (hbits : i.usedBits = encodeN 0xFF) (hop : opField w = i.opcode)
    (nreg : Nat) : decode nreg w = .ok i := by
  cases i with
  | pop | plus | minus | mult | div | label | halt | peek => simp [decode, hop, Instr.opcode]
  | _ => simp [Instr.usedBits, encodeN, packWord] at hbits

end Sys2Proof

namespace Sys2Proof.Machine

variable {s : State} {i : Instr}

/-! ### The ALU on 64-bit vectors -/

/-- The wrapped sum of the signed readings is the sum of the vectors (R63, decision D6). -/
theorem aluAdd_eq_add (a b : Word) : aluAdd a b = a + b :=
  BitVec.eq_of_toInt_eq (by rw [aluAdd, wrap64, BitVec.toInt_ofInt, BitVec.toInt_add])

/-- The wrapped difference of the signed readings is the difference of the vectors (R63, decision D6). -/
theorem aluSub_eq_sub (a b : Word) : aluSub a b = a - b :=
  BitVec.eq_of_toInt_eq (by rw [aluSub, wrap64, BitVec.toInt_ofInt, BitVec.toInt_sub])

/-- The wrapped product of the signed readings is the product of the vectors (R63, decision D6). -/
theorem aluMul_eq_mul (a b : Word) : aluMul a b = a * b :=
  BitVec.eq_of_toInt_eq (by rw [aluMul, wrap64, BitVec.toInt_ofInt, BitVec.toInt_mul])

/-! ### A binary operation on the two top slots -/

/-- Fewer than two values are StackUnderflow, before any slot is read. -/
theorem withTopTwo_of_lt (h : s.size < 2) (k : Word → Word → Result) :
    withTopTwo s k = .next (s.raise .stackUnderflow) := if_pos h

/-- Two values on the stack are the operands, second from top first. -/
theorem withTopTwo_of_two_le (htwo : 2 ≤ s.size) (hcap : s.size ≤ s.cap) (k : Word → Word → Result) :
    withTopTwo s k = k (s.slot (s.size - 2)) (s.slot (s.size - 1)) := by
  rw [withTopTwo, if_neg (by omega), memRead_of_lt (by omega), memRead_of_lt (by omega)]

/-- The result of a binary operation takes the second slot from the top; of the rest only `S` and `ip` move. -/
theorem replaceTopTwo_completes (htwo : 2 ≤ s.size) (hcap : s.size ≤ s.cap) (v : Word) :
    ∃ t, replaceTopTwo s v = .next t ∧ t = { s with slots := t.slots, size := s.size - 1, ip := s.ip + 1 } ∧
      ∀ j, t.slot j = if j = s.size - 2 then v else s.slot j := by
  refine ⟨((s.setSlot (s.size - 2) v).setSize (s.size - 1)).advance, memWrite_of_lt (by omega) v _, rfl, fun j => ?_⟩
  rw [State.advance_slot_eq, State.setSize_slot_eq, State.slot_setSlot]

/-- An instruction that executes as a binary operation with the ALU law `g` replaces the two top slots by the function
`f` that `g` computes. -/
theorem replacesTopTwo_of_exec {f g : Word → Word → Word} (hg : ∀ a b, g a b = f a b)
    (hexec : ∀ s, exec i s = withTopTwo s (fun a b => replaceTopTwo s (g a b))) : ReplacesTopTwo i f := by
  refine fun s hcap => ⟨fun htwo => ?completes, fun hfew => ?underflows⟩
  case completes =>
    rw [hexec, withTopTwo_of_two_le htwo hcap, hg]
    exact replaceTopTwo_completes htwo hcap _
  case underflows =>
    rw [hexec, withTopTwo_of_lt hfew]
    rfl

/-! ### Division (R62) -/

/-- A division of two values by 0 is DivisionByZero. -/
theorem exec_div_of_zero (htwo : 2 ≤ s.size) (hcap : s.size ≤ s.cap) (hzero : s.slot (s.size - 1) = 0) :
    exec .div s = .next (s.raise .divisionByZero) :=
  (withTopTwo_of_two_le htwo hcap _).trans (if_pos (by rw [hzero]; rfl))

/-- A division of two values by a value that is not 0 puts the ALU's quotient in their place. -/
theorem exec_div_of_ne_zero (htwo : 2 ≤ s.size) (hcap : s.size ≤ s.cap) (hne : s.slot (s.size - 1) ≠ 0) :
    exec .div s = replaceTopTwo s (aluDiv (s.slot (s.size - 2)) (s.slot (s.size - 1))) :=
  (withTopTwo_of_two_le htwo hcap _).trans (if_neg fun h => hne (BitVec.eq_of_toInt_eq h))

end Sys2Proof.Machine
end

section
/-!
PROOFS. The arithmetic instructions (`spec/41_arith.md`): `plus`, `minus`, `mult` (R59 to R61) and `div` (R62).
-/

namespace Sys2Proof.Machine

/-- Settles O36: each of the three is the binary operation of its ALU law, which is the vector operation. -/
theorem plusMinusMultReplaceTheTopTwo : Obligations.PlusMinusMultReplaceTheTopTwo :=
  ⟨decode_of_operandless rfl (by decide), replacesTopTwo_of_exec aluAdd_eq_add fun _ => rfl,
   decode_of_operandless rfl (by decide), replacesTopTwo_of_exec aluSub_eq_sub fun _ => rfl,
   decode_of_operandless rfl (by decide), replacesTopTwo_of_exec aluMul_eq_mul fun _ => rfl⟩

/-- Settles O37: the size is tested first, then the divisor, and only then is the quotient written. -/
theorem divReplacesTheTopTwo : Obligations.DivReplacesTheTopTwo := by
  refine ⟨decode_of_operandless rfl (by decide),
    fun s hcap => ⟨fun htwo hne => ?completes, fun hfew => ?underflows, fun htwo hzero => ?dividesByZero⟩⟩
  case completes =>
    rw [exec_div_of_ne_zero htwo hcap hne]
    exact replaceTopTwo_completes htwo hcap _
  case underflows => exact withTopTwo_of_lt hfew _
  case dividesByZero => exact exec_div_of_zero htwo hcap hzero

end Sys2Proof.Machine
end

section
/-!
SUPPORT. Decoding the canonical word of an instruction that names one register, and which outcome the operand forms of
the register instructions have: the top of the stack, a register updated in place, a register that takes a popped value.
-/

namespace Sys2Proof

variable {nreg : Nat} {i : Instr} {r : Reg}

/-- The canonical word of an instruction that names one register decodes to it on a core that has the register. -/
theorem decode_encode_of_regs_eq_singleton (hregs : i.regs = [r]) (h : r.index < nreg) :
    decode nreg (encode i) = .ok i := by
  have hdecode := decodeReg_regField h
  cases i with
  | load ra | unload ra | append ra | decrement ra | returnReg ra =>
    obtain rfl : ra = r := by simpa [Instr.regs] using hregs
    simp [decode, encode, encodeR, Instr.opcode, decodeWithRa, hdecode]
  | move imm ra | appendVal imm ra | decrementVal imm ra | cmpVal imm ra =>
    obtain rfl : ra = r := by simpa [Instr.regs] using hregs
    simp [decode, encode, encodeIR, Instr.opcode, decodeWithRa, hdecode]
  | _ => simp [Instr.regs] at hregs

/-- An opcode, a register field and zeros make the word of format R (R46). -/
theorem append_zeros_eq_encodeR (op : BitVec 8) (r : Reg) :
    (op ++ BitVec.ofNat 4 r.index ++ 0#68 : IWord) = encodeR op r := by
  refine BitVec.eq_of_getLsbD_eq fun j _ => ?_
  unfold encodeR packWord regField
  simp only [BitVec.getLsbD_append, BitVec.ofNat_eq_ofNat, BitVec.getLsbD_zero]
  grind

/-- An instruction of format R is decoded from its opcode, its register's index and zeros. -/
theorem decode_of_formatR (hword : encode i = encodeR i.opcode r) (hregs : i.regs = [r]) (h : r.index < nreg) :
    decode nreg (i.opcode ++ BitVec.ofNat 4 r.index ++ 0#68) = .ok i := by
  rw [append_zeros_eq_encodeR, ← hword, decode_encode_of_regs_eq_singleton hregs h]

end Sys2Proof

namespace Sys2Proof.Machine

variable {s : State} {i : Instr} {r : Reg}

/-- An empty stack has no top: StackEmpty, before any slot is read (R94). -/
theorem withTop_of_empty (h : s.size = 0) (k : Word → Result) : withTop s k = .next (s.raise .stackEmpty) := if_pos h

/-- The top of a stack that holds a value is the slot below `S` (R31). -/
theorem withTop_of_pos (hpos : 0 < s.size) (hcap : s.size ≤ s.cap) (k : Word → Result) :
    withTop s k = k (s.slot (s.size - 1)) := by
  rw [withTop, if_neg hpos.ne', memRead_of_lt (by omega)]

/-- An instruction that executes as a write of `g` of a register into it, where `g` computes `f`, updates the register
by `f`. -/
theorem updatesRegister_of_exec {f g : Word → Word} (hg : ∀ x, g x = f x)
    (hexec : ∀ s, exec i s = withReg s r (fun x => .next (s.setReg r (g x)).advance)) : UpdatesRegister i r f := by
  refine fun s x hx => ⟨(s.setReg r (f x)).advance, ?completes, rfl, s.setReg_nreg r _, fun q => ?registers⟩
  case completes => rw [hexec, withReg_of_some hx, hg]
  case registers => rw [State.advance_reg_eq, State.reg_setReg s q r _ (State.lt_of_reg hx)]

/-- An instruction that executes as a pop of the top into `g` of a register and the top, where `g` computes `f`, pops
into the register by `f`. -/
theorem popsIntoRegister_of_exec {f g : Word → Word → Word} (hg : ∀ x v, g x v = f x v)
    (hexec : ∀ s, exec i s =
      withReg s r (fun x => withTop s (fun v => .next ((s.setReg r (g x v)).setSize (s.size - 1)).advance))) :
    PopsIntoRegister i r f := by
  refine fun s x hx hcap => ⟨fun hpos => ⟨((s.setReg r (f x (s.slot (s.size - 1)))).setSize (s.size - 1)).advance,
    ?completes, rfl, s.setReg_nreg r _, fun q => ?registers⟩, fun hempty => ?raises⟩
  case completes => rw [hexec, withReg_of_some hx, withTop_of_pos hpos hcap, hg]
  case registers =>
    rw [State.advance_reg_eq, State.setSize_reg_eq, State.reg_setReg s q r _ (State.lt_of_reg hx)]
  case raises =>
    rw [hexec, withReg_of_some hx, withTop_of_empty hempty]
    rfl

/-- `unload` of a register the core has is a push of its value (R66). -/
theorem exec_unload_of_reg {x : Word} (hx : s.reg? r = some x) : exec (.unload r) s = pushValue s x :=
  withReg_of_some hx _

end Sys2Proof.Machine
end

section
/-!
PROOFS. The register instructions (`spec/42_register.md`): `move`, `append_val` and `decrement_val` (R64, R68, R70),
`load` (R65), `append` and `decrement` (R67, R69) and `unload` (R66).
-/

namespace Sys2Proof.Machine

/-- Settles O38: each of the three writes its register, with the ALU's sum and difference those of the vectors. -/
theorem immediateRegisterInstructions : Obligations.ImmediateRegisterInstructions :=
  fun imm r =>
    ⟨fun _ h => ⟨decode_encode_of_regs_eq_singleton (i := .move imm r) rfl h,
      decode_encode_of_regs_eq_singleton (i := .appendVal imm r) rfl h,
      decode_encode_of_regs_eq_singleton (i := .decrementVal imm r) rfl h⟩,
     updatesRegister_of_exec (fun _ => rfl) fun _ => rfl,
     updatesRegister_of_exec (aluAdd_eq_add · imm) fun _ => rfl,
     updatesRegister_of_exec (aluSub_eq_sub · imm) fun _ => rfl⟩

/-- Settles O39: `load` is the pop into a register that keeps nothing of the register's old value. -/
theorem loadPopsIntoARegister : Obligations.LoadPopsIntoARegister :=
  fun r => ⟨fun _ => decode_of_formatR (i := .load r) rfl rfl,
    popsIntoRegister_of_exec (fun _ _ => rfl) fun _ => rfl⟩

/-- Settles O40: the two are the pops into a register with the ALU's sum and difference, the register on the left. -/
theorem appendAndDecrementPopIntoARegister : Obligations.AppendAndDecrementPopIntoARegister :=
  fun r =>
    ⟨fun _ h => ⟨decode_of_formatR (i := .append r) rfl rfl h, decode_of_formatR (i := .decrement r) rfl rfl h⟩,
     popsIntoRegister_of_exec aluAdd_eq_add fun _ => rfl,
     popsIntoRegister_of_exec aluSub_eq_sub fun _ => rfl⟩

/-- Settles O41: `unload` is the push of the register's value, which below the capacity writes only the slot at `S` and
at the capacity raises before it writes. -/
theorem unloadPushesARegister : Obligations.UnloadPushesARegister := by
  refine fun r => ⟨fun _ => decode_of_formatR (i := .unload r) rfl rfl, fun s x hx _ => ?_⟩
  rw [exec_unload_of_reg hx]
  refine ⟨fun hroom => ?completes, fun hfull => ?overflows⟩
  case completes => exact ⟨_, pushValue_of_lt hroom x, rfl, State.slot_pushed x _⟩
  case overflows => exact pushValue_of_full hfull.ge x

end Sys2Proof.Machine
end

section
/-!
SUPPORT. Decoding the canonical word of an instruction that names two registers, the number the three-way comparison
answers in each of its cases (`spec/43_compare.md` R71), and what the two compares execute to.
-/

namespace Sys2Proof

/-- The canonical word of an instruction that names two registers decodes to it on a core that has both. -/
theorem decode_encode_of_regs_eq_pair {nreg : Nat} {i : Instr} {q r : Reg} (hregs : i.regs = [q, r])
    (hq : q.index < nreg) (hr : r.index < nreg) : decode nreg (encode i) = .ok i := by
  have hdecodeq := decodeReg_regField hq
  have hdecoder := decodeReg_regField hr
  cases i with
  | cmp ra rb =>
    obtain ⟨rfl, rfl⟩ : ra = q ∧ rb = r := by simpa [Instr.regs] using hregs
    simp [decode, encode, encodeRR, Instr.opcode, decodeWithRaRb, hdecodeq, hdecoder]
  | _ => simp [Instr.regs] at hregs

end Sys2Proof

namespace Sys2Proof.Machine

variable {s : State} {a b xa xb : Word} {ra rb : Reg}

/-! ### The number of the three-way comparison -/

/-- The comparison's number for greater is +1. -/
theorem cmp3_toInt_of_gt (h : b.toInt < a.toInt) : (cmp3 a b).toInt = 1 := by
  rw [(cmp3_eq_plusOne a b).mpr h]
  rfl

/-- The comparison's number for less is -1. -/
theorem cmp3_toInt_of_lt (h : a.toInt < b.toInt) : (cmp3 a b).toInt = -1 := by
  rw [(cmp3_eq_minusOne a b).mpr h]
  rfl

/-- The comparison's number for equal is 0. -/
theorem cmp3_toInt_of_eq (h : a = b) : (cmp3 a b).toInt = 0 := by
  rw [(cmp3_eq_zero a b).mpr h]
  rfl

/-! ### The compares on registers the core has -/

/-- `cmp` of two registers the core has writes the flag of their values and advances (R72). -/
theorem exec_cmp_of_reg (ha : s.reg? ra = some xa) (hb : s.reg? rb = some xb) :
    exec (.cmp ra rb) s = .next (s.setCf (cmpFlag xa xb)).advance :=
  (withReg_of_some ha _).trans (withReg_of_some hb _)

/-- `cmp_val` of a register the core has writes the flag of its value and the immediate and advances (R73). -/
theorem exec_cmpVal_of_reg (ha : s.reg? ra = some xa) (imm : Word) :
    exec (.cmpVal imm ra) s = .next (s.setCf (cmpValFlag xa imm)).advance :=
  withReg_of_some ha _

end Sys2Proof.Machine
end

section
/-!
PROOFS. The compare instructions (`spec/43_compare.md`): `cmp` (R72) and `cmp_val` (R73), of opposite polarities.
-/

namespace Sys2Proof.Machine

/-- Settles O43: `cmp` writes the negation of the three-way comparison of the two registers. -/
theorem cmpWritesTheInvertedFlag : Obligations.CmpWritesTheInvertedFlag := by
  refine fun ra rb => ⟨fun _ => decode_encode_of_regs_eq_pair (i := .cmp ra rb) rfl, fun s xa xb ha hb =>
    ⟨_, exec_cmp_of_reg ha hb, rfl, fun hgt => ?greater, fun hlt => ?less, fun heq => ?equal⟩⟩
  all_goals simp only [State.advance_cf, State.setCf_cf, cmpFlag, CompareFlag.neg_toInt]
  case greater => rw [cmp3_toInt_of_gt hgt]
  case less => rw [cmp3_toInt_of_lt hlt, neg_neg]
  case equal => rw [cmp3_toInt_of_eq heq, neg_zero]

/-- Settles O44: `cmp_val` writes the three-way comparison of the register with the immediate as it is. -/
theorem cmpValWritesTheFlag : Obligations.CmpValWritesTheFlag :=
  fun imm ra => ⟨fun _ => decode_encode_of_regs_eq_singleton (i := .cmpVal imm ra) rfl, fun _ _ ha =>
    ⟨_, exec_cmpVal_of_reg ha imm, rfl, cmp3_toInt_of_gt, cmp3_toInt_of_lt, cmp3_toInt_of_eq⟩⟩

end Sys2Proof.Machine
end

section
/-!
SUPPORT. Decoding a word of format I, the outcomes of each operand form of the jumps (`spec/44_control.md` R76, R78),
and the pass of the run loop that each of its three tests selects (R74).
-/

namespace Sys2Proof

/-- Format I uses the opcode and the immediate only (R46), so a word written as a head and an immediate decodes to the
instruction with that immediate whose opcode is the head's upper byte. -/
theorem decode_of_formatI {i : Instr} {head : BitVec 16} {imm : Word} (hbits : i.usedBits = encodeI 0xFF (-1))
    (hword : encode i = encodeI i.opcode imm) (hop : head.extractLsb' 8 8 = i.opcode) (nreg : Nat) :
    decode nreg (head ++ imm) = .ok i := by
  have himm : immField (encode i) = imm := by rw [hword, encodeI, immField_packWord]
  cases i with
  | push v | jump v | jeq v | jne v | jgr v | jge v | jle v | jls v =>
    obtain rfl : v = imm := by simpa [encode, encodeI] using himm
    simp [decode, hop, Instr.opcode]
  | _ => simp [Instr.usedBits, encodeI, packWord] at hbits

end Sys2Proof

namespace Sys2Proof.Machine

variable {s : State} {i : Instr} {imm : Word}

/-! ### Jumps (R76, R78) -/

/-- A jump to a target in `0 .. N-1` goes there (R76). -/
theorem jumpTo_of_valid (hlow : 0 ≤ imm.toInt) (hhigh : imm.toInt < s.progLen) : jumpTo s imm = .next (s.setIp imm) :=
  if_neg (by omega)

/-- A jump to any other target is InvalidJumpAddress (R76). -/
theorem jumpTo_of_invalid (h : imm.toInt < 0 ∨ s.progLen ≤ imm.toInt) :
    jumpTo s imm = .next (s.raise .invalidJumpAddress) := if_pos h

/-- An immediate that is not negative as a signed number is the same number unsigned. -/
theorem toNat_eq_toInt_of_nonneg (h : 0 ≤ imm.toInt) : (imm.toNat : Int) = imm.toInt := by
  have hmsb : imm.msb = false := by simpa [BitVec.msb_eq_toInt] using h
  exact (BitVec.toInt_eq_toNat_of_msb hmsb).symm

/-- An instruction that executes as a conditional jump on a test `c` of the flag, where `c` decides `taken` of the
flag's number, jumps when `taken` holds. -/
theorem jumpsWhen_of_exec {taken : Int → Prop} {c : CompareFlag → Bool} (hc : ∀ f, c f = true ↔ taken f.toInt)
    (hexec : ∀ s, exec i s = condJump s (c s.cf) imm) : JumpsWhen i imm taken := by
  refine fun s => ⟨fun htaken hlow hhigh => ⟨s.setIp imm, ?jumps, rfl, toNat_eq_toInt_of_nonneg hlow⟩,
    fun htaken hinvalid => ?raises, fun hnot => ?advances⟩
  case jumps => rw [hexec, condJump, if_pos ((hc _).mpr htaken), jumpTo_of_valid hlow hhigh]
  case raises =>
    rw [hexec, condJump, if_pos ((hc _).mpr htaken), jumpTo_of_invalid hinvalid]
    rfl
  case advances =>
    rw [hexec, condJump, if_neg (mt (hc _).mp hnot)]
    rfl

/-! ### The three tests of the run loop (R74) -/

/-- In a halted core that is still active a clock edge ends the run. -/
theorem step_of_halted (hrst : s.pins.rst = false) (hactive : s.active = true) (hhalted : s.halted = true) :
    step s = .next s.endRun :=
  (step_of_active hrst hactive).trans (runStep_of_halted hhalted)

/-- A pass of the run loop with `ip` outside the program is InvalidMemoryAccess. -/
theorem runStep_of_outside (hhalted : s.halted = false) (hip : s.progLen ≤ s.ip.toNat) :
    runStep s = .next (s.raise .invalidMemoryAccess) := by
  simp [runStep, hhalted, fetch_eq_none.mpr hip]

/-- A pass of the run loop at a word that does not decode is UnknownOperation. -/
theorem runStep_of_unknown {w : IWord} {e : Unknown} (hhalted : s.halted = false) (hfetch : s.fetch = some w)
    (hdecode : decode s.nreg w = .error e) : runStep s = .next (s.raise .unknownOperation) := by
  simp [runStep, hhalted, hfetch, hdecode]

/-- A pass of the run loop at a word that decodes executes its instruction. -/
theorem runStep_of_decoded {w : IWord} (hhalted : s.halted = false) (hfetch : s.fetch = some w)
    (hdecode : decode s.nreg w = .ok i) : runStep s = exec i s := by
  simp [runStep, hhalted, hfetch, hdecode]

/-- A clock edge of a core that is about to run an instruction executes it. -/
theorem State.AboutToRun.step_eq_exec (h : s.AboutToRun i) : step s = exec i s := by
  obtain ⟨hrst, hactive, hhalted, w, hfetch, hdecode⟩ := h
  rw [step_of_active hrst hactive, runStep_of_decoded hhalted hfetch hdecode]

end Sys2Proof.Machine
end

section
/-!
PROOFS. The sequencer and the control-flow instructions (`spec/44_control.md`): the run loop (R74), `jump` (R77), the
six conditional jumps (R79 to R84), `label` (R85) and `halt` (R86).
-/

namespace Sys2Proof.Machine

/-- Settles O45: `jump` is the conditional jump whose condition always holds. -/
theorem jumpGoesToItsTarget : Obligations.JumpGoesToItsTarget :=
  fun imm => ⟨decode_of_formatI (i := .jump imm) rfl rfl rfl,
    jumpsWhen_of_exec (c := fun _ => true) (fun _ => by simp) fun _ => rfl⟩

/-- Settles O46: each of the six is the conditional jump on its own test of the flag. -/
theorem conditionalJumpsFollowTheFlag : Obligations.ConditionalJumpsFollowTheFlag :=
  fun imm =>
    ⟨fun nreg =>
      ⟨decode_of_formatI (i := .jeq imm) rfl rfl rfl nreg, decode_of_formatI (i := .jne imm) rfl rfl rfl nreg,
       decode_of_formatI (i := .jgr imm) rfl rfl rfl nreg, decode_of_formatI (i := .jge imm) rfl rfl rfl nreg,
       decode_of_formatI (i := .jle imm) rfl rfl rfl nreg, decode_of_formatI (i := .jls imm) rfl rfl rfl nreg⟩,
     jumpsWhen_of_exec CompareFlag.isEq_iff fun _ => rfl, jumpsWhen_of_exec CompareFlag.isNe_iff fun _ => rfl,
     jumpsWhen_of_exec CompareFlag.isGr_iff fun _ => rfl, jumpsWhen_of_exec CompareFlag.isGe_iff fun _ => rfl,
     jumpsWhen_of_exec CompareFlag.isLe_iff fun _ => rfl, jumpsWhen_of_exec CompareFlag.isLs_iff fun _ => rfl⟩

/-- Settles O7: an active core's step is a pass of the run loop, whose tests are taken one by one. -/
theorem runLoopTestsInOrder : Obligations.RunLoopTestsInOrder := by
  refine fun s hrst hactive => ⟨step_of_halted hrst hactive, fun hhalted hip => ?outside, fun hhalted w hfetch =>
    ⟨fun e hdecode => ?unknown, fun i hdecode => ?decoded⟩⟩
  all_goals rw [step_of_active hrst hactive]
  case outside => exact runStep_of_outside hhalted hip
  case unknown => exact runStep_of_unknown hhalted hfetch hdecode
  case decoded => exact runStep_of_decoded hhalted hfetch hdecode

/-- Settles O47: `label` has no operand, and its meaning is the advance of `ip`. -/
theorem labelOnlyAdvances : Obligations.LabelOnlyAdvances :=
  ⟨decode_of_operandless rfl (by decide), fun _ => rfl⟩

/-- Settles O48: `halt` leaves the core active and halted, so the first test of the run loop ends the run. -/
theorem haltEndsTheRunAtTheNextStep : Obligations.HaltEndsTheRunAtTheNextStep := by
  refine ⟨decode_of_operandless rfl (by decide), fun s => ⟨rfl, fun habout => ⟨habout.step_eq_exec, ?ends⟩⟩⟩
  obtain ⟨hrst, hactive, _⟩ := habout
  exact step_of_halted (s := s.setHalted) hrst hactive rfl

end Sys2Proof.Machine
end

section
/-!
PROOFS. The output instructions (`spec/45_output.md`): `peek` (R88) and `return` (R89).
-/

namespace Sys2Proof.Machine

/-- Settles O49: `peek` takes the top as its operand, which on an empty stack raises before `out` is written, and else
writes only `out` and `ip`. -/
theorem peekCopiesTheTopToOut : Obligations.PeekCopiesTheTopToOut := by
  refine ⟨decode_of_operandless rfl (by decide), fun s hcap => ⟨fun hpos => ?completes, fun hempty => ?raises⟩⟩
  case completes => exact withTop_of_pos hpos hcap _
  case raises => exact withTop_of_empty hempty _

/-- Settles O50: `return` has a register as its operand and writes its value to `out`; with the register present no check
is left that could fail. -/
theorem returnCopiesARegisterToOut : Obligations.ReturnCopiesARegisterToOut := by
  refine fun r => ⟨fun nreg hpresent => ?decodes, fun s x hx => ?completes⟩
  case decodes => exact decode_of_formatR (i := .returnReg r) rfl rfl hpresent
  case completes => exact withReg_of_some hx _

end Sys2Proof.Machine
end

section
/-!
SUPPORT. An error as one of the two ways an instruction can come out: it raises, or the run goes on with `err` as it was
(`spec/60_exceptions.md` R91).
-/

namespace Sys2Proof.Machine

variable {s t : State} {i : Instr}

/-- No effect of an instruction but an error touches `active` or `err`. -/
theorem Effect.raises_or_goesOn (h : Effect s i t) :
    (∃ e, e ≠ .noError ∧ t = s.raise e) ∨ (t.active = s.active ∧ t.err = s.err) := by
  cases h with
  | raises _ e error => exact .inl ⟨e, error, rfl⟩
  | _ => exact .inr ⟨rfl, rfl⟩

end Sys2Proof.Machine
end

section
/-!
PROOFS. The rules of `spec/60_exceptions.md` about what an error changes (R91).
-/

namespace Sys2Proof.Machine

/-- Settles O24: the pass of the run loop is no end of a run, since the core is not halted, so it raises by itself or
executes an instruction, which raises or goes on. -/
theorem anErrorChangesOnlyErrAndActive : Obligations.AnErrorChangesOnlyErrAndActive := by
  intro s t hrst hactive hhalted h
  obtain ⟨hend, _⟩ | hraises | ⟨i, _, hexec⟩ := step_active_next hrst hactive h
  · simp [hhalted] at hend
  · exact .inr hraises
  · obtain hraises | ⟨hgoesOn, herr⟩ := (exec_next hexec).raises_or_goesOn
    · exact .inr hraises
    · exact .inl ⟨hgoesOn.trans hactive, herr⟩

end Sys2Proof.Machine
end

section
/-!
SUPPORT. The two ways a START of a legal program comes out: the pre-flight check fails it, or the run begins
(`spec/60_exceptions.md` R97, `spec/70_reset_and_hazards.md` R112).
-/

namespace Sys2Proof.Machine

variable {s : State} {program : List IWord}

/-- The pre-flight scan asks for the opcode number of `halt` in any word, and for nothing else of the word (R97). -/
theorem hasHalt_iff : hasHalt program = true ↔ ∃ w ∈ program, opField w = 0x18#8 := by
  simp [hasHalt]

/-- The scan fails a program when every word has another opcode number. -/
theorem hasHalt_eq_false_iff : hasHalt program = false ↔ ∀ w ∈ program, opField w ≠ 0x18#8 := by
  simp [hasHalt]

/-- With PREFLIGHT off, or a `halt` in the program, a START begins the run. -/
theorem startRun_of_passes (hN : s.progLen < 2 ^ 63) (h : s.preflight = false ∨ hasHalt s.pins.program = true) :
    startRun s = .next s.beginRun := by
  have hpass : ¬ (s.preflight && !hasHalt s.pins.program) = true := by
    obtain hoff | hhalt := h
    · simp [hoff]
    · simp [hhalt]
  exact (if_neg hN.not_ge).trans (if_neg hpass)

/-- With PREFLIGHT on and no `halt` in the program, a START raises the pre-flight error in the run it began. -/
theorem startRun_of_fails (hN : s.progLen < 2 ^ 63) (hon : s.preflight = true)
    (hhalt : hasHalt s.pins.program = false) : startRun s = .next (s.beginRun.raise .programWithoutHalt) :=
  (if_neg hN.not_ge).trans (if_pos (by simp [hon, hhalt]))

end Sys2Proof.Machine
end

section
/-!
PROOFS. The START event (`spec/70_reset_and_hazards.md` R112) with its pre-flight check (`spec/60_exceptions.md` R97).
-/

namespace Sys2Proof.Machine

/-- Settles O11: the clock edge is a START, and the pre-flight check decides whether the run it begins goes on. -/
theorem startBeginsTheRun : Obligations.StartBeginsTheRun := by
  refine fun s hrst hidle hstart hN => ⟨fun hpass => ?begins, fun hon hnone => ?fails⟩
  all_goals rw [step_of_start hrst hidle hstart]
  case begins => exact startRun_of_passes hN (hpass.imp_right hasHalt_iff.mpr)
  case fails => exact startRun_of_fails hN hon (hasHalt_eq_false_iff.mpr hnone)

end Sys2Proof.Machine
end

section
/-!
SUPPORT. A word under the mask of the bits its format uses (`spec/30_encoding.md` R46, R50): what masking does to the
four fields, and decoding as an equation between the masked word and a canonical one.
-/

namespace Sys2Proof

variable {nreg : Nat} {w : IWord} {i : Instr}

/-! ### Words field by field -/

/-- Two packed words are equal exactly when their fields are. -/
theorem packWord_inj {op op' : BitVec 8} {ra ra' rb rb' : BitVec 4} {imm imm' : Word} :
    packWord op ra rb imm = packWord op' ra' rb' imm' ↔ op = op' ∧ ra = ra' ∧ rb = rb' ∧ imm = imm' := by
  refine ⟨fun h => ⟨?opcode, ?first, ?second, ?immediate⟩, ?equal⟩
  case opcode => simpa using congrArg opField h
  case first => simpa using congrArg raField h
  case second => simpa using congrArg rbField h
  case immediate => simpa using congrArg immField h
  case equal =>
    rintro ⟨rfl, rfl, rfl, rfl⟩
    rfl

/-- Masking a word masks each of its fields. -/
theorem and_packWord (w : IWord) (op : BitVec 8) (ra rb : BitVec 4) (imm : Word) :
    w &&& packWord op ra rb imm =
      packWord (opField w &&& op) (raField w &&& ra) (rbField w &&& rb) (immField w &&& imm) := by
  apply word_ext <;> simp [opField_and, raField_and, rbField_and, immField_and]

/-! ### The mask of each format (R46) -/

/-- Format N uses the opcode alone. -/
theorem and_maskN (w : IWord) : w &&& 0xFF00_0000000000000000#80 = encodeN (opField w) := by
  rw [show 0xFF00_0000000000000000#80 = packWord (.allOnes 8) 0 0 0 by decide, and_packWord]
  simp [encodeN, -BitVec.reduceAllOnes]

/-- Format I uses the opcode and the immediate. -/
theorem and_maskI (w : IWord) : w &&& 0xFF00_FFFFFFFFFFFFFFFF#80 = encodeI (opField w) (immField w) := by
  rw [show 0xFF00_FFFFFFFFFFFFFFFF#80 = packWord (.allOnes 8) 0 0 (.allOnes 64) by decide, and_packWord]
  simp [encodeI, -BitVec.reduceAllOnes]

/-- Format R uses the opcode and the first register field. -/
theorem and_maskR (w : IWord) : w &&& 0xFFF0_0000000000000000#80 = packWord (opField w) (raField w) 0 0 := by
  rw [show 0xFFF0_0000000000000000#80 = packWord (.allOnes 8) (.allOnes 4) 0 0 by decide, and_packWord]
  simp [-BitVec.reduceAllOnes]

/-- Format RR uses all but the immediate. -/
theorem and_maskRR (w : IWord) : w &&& 0xFFFF_0000000000000000#80 = packWord (opField w) (raField w) (rbField w) 0 := by
  rw [show 0xFFFF_0000000000000000#80 = packWord (.allOnes 8) (.allOnes 4) (.allOnes 4) 0 by decide, and_packWord]
  simp [-BitVec.reduceAllOnes]

/-- Format IR uses all but the second register field. -/
theorem and_maskIR (w : IWord) :
    w &&& 0xFFF0_FFFFFFFFFFFFFFFF#80 = packWord (opField w) (raField w) 0 (immField w) := by
  rw [show 0xFFF0_FFFFFFFFFFFFFFFF#80 = packWord (.allOnes 8) (.allOnes 4) 0 (.allOnes 64) by decide,
    and_packWord]
  simp [-BitVec.reduceAllOnes]

/-- Every format uses the opcode. -/
theorem opField_and_usedBits (w : IWord) (i : Instr) : opField (w &&& i.usedBits) = opField w := by
  have hones : opField i.usedBits = .allOnes 8 := by cases i <;> simp [Instr.usedBits, opField]
  rw [opField_and, hones, BitVec.and_allOnes]

/-- The canonical word has no bit outside the ones its format uses (R50). -/
theorem encode_and_usedBits (i : Instr) : encode i &&& i.usedBits = encode i := by
  cases i with
  | pop | plus | minus | mult | div | label | halt | peek => simp [Instr.usedBits, and_maskN, encode, encodeN]
  | push v | jump v | jeq v | jne v | jgr v | jge v | jle v | jls v =>
    simp [Instr.usedBits, and_maskI, encode, encodeI]
  | load r | unload r | append r | decrement r | returnReg r => simp [Instr.usedBits, and_maskR, encode, encodeR]
  | cmp q r => simp [Instr.usedBits, and_maskRR, encode, encodeRR]
  | move v r | appendVal v r | decrementVal v r | cmpVal v r => simp [Instr.usedBits, and_maskIR, encode, encodeIR]

/-! ### Decoding as an equation of words -/

/-- The canonical word has the opcode of its instruction. -/
theorem opField_encode (i : Instr) : opField (encode i) = i.opcode := by
  cases i <;> simp [encode, encodeN, encodeI, encodeR, encodeRR, encodeIR]

/-- A field decodes to a register exactly when it is the register's own field, on a core that has the register. -/
theorem decodeReg_eq_ok_iff_regField {f : BitVec 4} {r : Reg} :
    decodeReg nreg f = .ok r ↔ r.index < nreg ∧ regField r = f := by
  refine decodeReg_eq_ok.trans ⟨fun ⟨hf, hlt⟩ => ⟨hlt, regField_of_index hf⟩, fun ⟨hlt, hf⟩ => ⟨?_, hlt⟩⟩
  subst hf
  cases r <;> rfl

/-- A word with the opcode of an instruction decodes to it exactly when the core has its registers and the word's used
bits are those of the canonical word. -/
theorem decode_eq_ok_of_opField (hop : opField w = i.opcode) :
    decode nreg w = .ok i ↔ WellFormed nreg i ∧ encode i = w &&& i.usedBits := by
  cases i with
  | pop | plus | minus | mult | div | label | halt | peek =>
    simp [decode, hop, Instr.opcode, WellFormed, Instr.regs, Instr.usedBits, and_maskN, encode]
  | push v | jump v | jeq v | jne v | jgr v | jge v | jle v | jls v =>
    simp [decode, hop, Instr.opcode, WellFormed, Instr.regs, Instr.usedBits, and_maskI, encode, encodeI, packWord_inj,
      eq_comm]
  | load r | unload r | append r | decrement r | returnReg r =>
    simp [decode, hop, Instr.opcode, WellFormed, Instr.regs, Instr.usedBits, and_maskR, encode, encodeR, packWord_inj,
      decodeWithRa_eq_ok, decodeReg_eq_ok_iff_regField]
  | cmp q r =>
    simp [decode, hop, Instr.opcode, WellFormed, Instr.regs, Instr.usedBits, and_maskRR, encode, encodeRR, packWord_inj,
      decodeWithRaRb_eq_ok, decodeReg_eq_ok_iff_regField, and_and_and_comm]
  | move v r | appendVal v r | decrementVal v r | cmpVal v r =>
    simp [decode, hop, Instr.opcode, WellFormed, Instr.regs, Instr.usedBits, and_maskIR, encode, encodeIR, packWord_inj,
      decodeWithRa_eq_ok, decodeReg_eq_ok_iff_regField, and_assoc]

/-- A word decodes to an instruction exactly when the core has the instruction's registers and the word, with its unused
fields zero, is the canonical word (R48, R50). -/
theorem decode_eq_ok_iff : decode nreg w = .ok i ↔ WellFormed nreg i ∧ encode i = w &&& i.usedBits := by
  refine ⟨fun h => (decode_eq_ok_of_opField (decode_ok h).1).mp h, fun h => (decode_eq_ok_of_opField ?_).mpr h⟩
  rw [← opField_and_usedBits w i, ← h.2, opField_encode]

/-! ### Words that do not decode (R48, R51) -/

/-- Every index below 8 is a register's. -/
theorem Reg.exists_index_eq {n : Nat} (h : n < 8) : ∃ r : Reg, r.index = n := by
  interval_cases n
  exacts [⟨.RA, rfl⟩, ⟨.RB, rfl⟩, ⟨.RC, rfl⟩, ⟨.RD, rfl⟩, ⟨.RE, rfl⟩, ⟨.RF, rfl⟩, ⟨.RG, rfl⟩, ⟨.RH, rfl⟩]

/-- A register field fails to decode exactly when it is NREG or more. -/
theorem decodeReg_error_iff (hnreg : nreg ≤ 8) {f : BitVec 4} :
    (∃ e, decodeReg nreg f = .error e) ↔ nreg ≤ f.toNat := by
  cases h : decodeReg nreg f with
  | ok r =>
    obtain ⟨hindex, hlt⟩ := decodeReg_eq_ok.mp h
    simp [hindex, hlt]
  | error e =>
    refine iff_of_true ⟨e, rfl⟩ (Nat.not_lt.mp fun hsmall => ?_)
    obtain ⟨r, hr⟩ := Reg.exists_index_eq (hsmall.trans_le hnreg)
    simp [decodeReg_eq_ok.mpr ⟨hr.symm, hr ▸ hsmall⟩] at h

/-- A format with one register fails to decode exactly when its field is NREG or more. -/
theorem decodeWithRa_error_iff (hnreg : nreg ≤ 8) {make : Reg → Instr} :
    (∃ e, decodeWithRa nreg w make = .error e) ↔ nreg ≤ (raField w).toNat := by
  rw [← decodeReg_error_iff hnreg, decodeWithRa]
  split <;> simp [*]

/-- A format with two registers fails to decode exactly when one of its fields is NREG or more. -/
theorem decodeWithRaRb_error_iff (hnreg : nreg ≤ 8) {make : Reg → Reg → Instr} :
    (∃ e, decodeWithRaRb nreg w make = .error e) ↔ nreg ≤ (raField w).toNat ∨ nreg ≤ (rbField w).toNat := by
  rw [← decodeReg_error_iff hnreg, ← decodeReg_error_iff hnreg, decodeWithRaRb]
  split
  · split <;> simp [*]
  · simp [*]

/-- Each arm of the decoder fails as its format does, and the arm without an instruction always. -/
theorem decode_error_iff (hnreg : nreg ≤ 8) :
    (∃ e, decode nreg w = .error e) ↔
      (opField w).toNat = 0x00 ∨ 0x1B ≤ (opField w).toNat ∨
      ((0x07 ≤ (opField w).toNat ∧ (opField w).toNat ≤ 0x0F ∨ (opField w).toNat = 0x1A) ∧
        nreg ≤ (raField w).toNat) ∨
      ((opField w).toNat = 0x0E ∧ nreg ≤ (rbField w).toNat) := by
  unfold decode
  split
  all_goals simp_all [decodeWithRa_error_iff hnreg, decodeWithRaRb_error_iff hnreg]
  -- What is left is the arm of the opcodes that are no instruction's.
  omega

end Sys2Proof
end

section
/-!
PROOFS. Decoding and encoding of the instruction word (`spec/30_encoding.md` R45 to R52, R55).
-/

namespace Sys2Proof

/-- Settles O1: the canonical word has only used bits, so masking it changes nothing. -/
theorem decodeEncodeRoundTrip : Obligations.DecodeEncodeRoundTrip :=
  fun _ i hwf => decode_eq_ok_iff.mpr ⟨hwf, (encode_and_usedBits i).symm⟩

/-- Settles O2: one direction of decoding as an equation of words. -/
theorem encodeOfDecodedIsCanonicalWord : Obligations.EncodeOfDecodedIsCanonicalWord :=
  fun _ _ _ => decode_eq_ok_iff.mp

/-- Settles O3: whether a word decodes to an instruction depends on the word's used bits only. -/
theorem unusedFieldsAreIgnored : Obligations.UnusedFieldsAreIgnored := by
  intro nreg w w' i h hagree
  obtain ⟨hwf, hcanonical⟩ := decode_eq_ok_iff.mp h
  exact decode_eq_ok_iff.mpr ⟨hwf, hcanonical.trans hagree.symm⟩

/-- Settles O4, arm by arm of the decoder. -/
theorem unknownWordsAreExactlyTheIllegalOnes : Obligations.UnknownWordsAreExactlyTheIllegalOnes :=
  fun _ _ hnreg => decode_error_iff hnreg

/-- Settles O5: each written word, masked, is the canonical word of its instruction. -/
theorem writtenWordsDecode : Obligations.WrittenWordsDecode := by
  refine ⟨?_, ?_, ?_, ?_, ?_, ?_, ?_, ?_, rfl⟩
  all_goals exact decode_eq_ok_iff.mpr (by decide)

end Sys2Proof
end

section
/-!
SUPPORT. Everything a clock edge can do on the way to a next state, said once: `step_event` inverts `step` into one of
seven events (`spec/70_reset_and_hazards.md` R115, `spec/44_control.md` R74), the last of them an instruction with its
effect. Whole-machine rules follow by cases on the event.
-/

namespace Sys2Proof.Machine

/-- The events of a clock edge on a state `s`, each with the conditions under which it happens. -/
inductive Event (s : State) : State → Prop
  /-- A reset (R111). -/
  | resets (rst : s.pins.rst = true) (cap : s.pins.cap.toNat ≠ 0) :
      Event s (State.afterReset s.nreg s.preflight s.pins.cap.toNat s.pins (s.resetCount + 1))
  /-- Nothing, in an idle core (`spec/60_exceptions.md` R110). -/
  | idles (rst : s.pins.rst = false) (idle : s.active = false) (start : s.pins.start = false) : Event s s
  /-- A START that begins a run (R112). -/
  | begins (rst : s.pins.rst = false) (idle : s.active = false) (start : s.pins.start = true)
      (program : s.progLen < 2 ^ 63) : Event s s.beginRun
  /-- A START that the pre-flight check fails (`spec/60_exceptions.md` R97). -/
  | failsPreflight (rst : s.pins.rst = false) (idle : s.active = false) (start : s.pins.start = true)
      (program : s.progLen < 2 ^ 63) : Event s (s.beginRun.raise .programWithoutHalt)
  /-- The end of the run of a core that has halted (R74). -/
  | ends (rst : s.pins.rst = false) (active : s.active = true) (halted : s.halted = true) : Event s s.endRun
  /-- An error of the run loop itself (R74). -/
  | raises (rst : s.pins.rst = false) (active : s.active = true) (e : ErrorCode) (error : e ≠ .noError) :
      Event s (s.raise e)
  /-- An instruction (R74). -/
  | executes (i : Instr) (t : State) (about : s.AboutToRun i) (effect : Effect s i t) : Event s t

variable {s t : State} {i : Instr}

/-- Everything a step can do on the way to a next state. -/
theorem step_event (h : step s = .next t) : Event s t := by
  obtain ⟨hrst, hreset⟩ | ⟨hrst, hactive, hrun⟩ | ⟨hrst, hidle, hstart, hbegin⟩ | ⟨hrst, hidle, hstart, rfl⟩ :=
    step_next h
  · obtain ⟨hcap, rfl⟩ := resetCore_next hreset
    exact .resets hrst hcap
  · obtain ⟨hhalted, rfl⟩ | ⟨e, he, rfl⟩ | ⟨i, habout, hexec⟩ := step_active_next hrst hactive h
    · exact .ends hrst hactive hhalted
    · exact .raises hrst hactive e he
    · exact .executes i t habout (exec_next hexec)
  · obtain ⟨hN, ⟨_, _, rfl⟩ | ⟨_, rfl⟩⟩ := startRun_next hbegin
    · exact .failsPreflight hrst hidle hstart hN
    · exact .begins hrst hidle hstart hN
  · exact .idles hrst hidle hstart

/-- A core that is about to run an instruction has `ip` inside the program. -/
theorem State.AboutToRun.ip_lt (h : s.AboutToRun i) : s.ip.toNat < s.progLen := by
  obtain ⟨_, _, _, w, hfetch, _⟩ := h
  exact lt_of_fetch hfetch

/-- A core that is about to run an instruction is in a run. -/
theorem State.AboutToRun.active_eq (h : s.AboutToRun i) : s.active = true := by
  obtain ⟨_, hactive, _⟩ := h
  exact hactive

end Sys2Proof.Machine
end

section
/-!
SUPPORT. The invariant of the core (`spec/10_state.md` R26) under each update of the state: one lemma per update, from
which the effects of instructions and the events of a clock edge are composed.
-/

namespace Sys2Proof.Machine

variable {s t : State} {i : Instr}

/-! ### Updates of one field -/

/-- Writing a register changes neither NREG nor anything else the invariant reads. -/
theorem State.Inv.setReg (h : s.Inv) (r : Reg) (v : Word) : (s.setReg r v).Inv :=
  { h with registers := (s.setReg_nreg r v).symm ▸ h.registers }

/-- The invariant does not read the flag. -/
theorem State.Inv.setCf (h : s.Inv) (f : CompareFlag) : (s.setCf f).Inv := { h with }

/-- The invariant does not read the output. -/
theorem State.Inv.setOut (h : s.Inv) (v : Word) : (s.setOut v).Inv := { h with }

/-- The invariant does not read `halted`. -/
theorem State.Inv.setHalted (h : s.Inv) : s.setHalted.Inv := { h with }

/-- Lowering `S` keeps every slot below it written. -/
theorem State.Inv.setSize (h : s.Inv) {n : Nat} (hn : n ≤ s.size) : (s.setSize n).Inv :=
  { h with
    size_le := hn.trans h.size_le
    written := fun i hi => h.written i (Nat.lt_of_lt_of_le hi hn) }

/-- A slot that is written stays written when a slot is written. -/
theorem isSome_read_setSlot {j k : Nat} (v : Word) (h : j = k ∨ (s.slots.read k).isSome) :
    ((s.setSlot j v).slots.read k).isSome := by
  rw [State.setSlot_slots, Memory.read_write]
  split
  · rfl
  · next hne => exact h.resolve_left (Ne.symm hne)

/-- Writing a slot the stack has keeps the memory canonical and inside the stack. -/
theorem State.Inv.setSlot (h : s.Inv) {j : Nat} (hj : j < s.cap) (v : Word) : (s.setSlot j v).Inv :=
  { h with
    slots_wf := Memory.write_wf h.slots_wf j v
    slots_lt := fun e he => (Memory.mem_write he).elim (fun hnew => hnew ▸ hj) (h.slots_lt e)
    written := fun k hk => isSome_read_setSlot v (.inr (h.written k hk)) }

/-- A push below the capacity writes the slot that comes below the new `S`. -/
theorem State.Inv.pushed (h : s.Inv) (hroom : s.size < s.cap) (v : Word) :
    ((s.setSlot s.size v).setSize (s.size + 1)).Inv :=
  { h.setSlot hroom v with
    size_le := hroom
    written := fun k hk => isSome_read_setSlot v
      ((Nat.lt_succ_iff_lt_or_eq.mp hk).elim (fun hlt => .inr (h.written k hlt)) (fun heq => .inl heq.symm)) }

/-- Moving `ip` to a place in `0 .. N` keeps the invariant. -/
theorem State.Inv.setIp (h : s.Inv) {a : BitVec 64} (ha : a.toNat ≤ s.progLen) : (s.setIp a).Inv :=
  { h with ip_le := fun _ => ha }

/-- The advance of `ip` from inside the program does not pass `N`, and does not wrap since `N` is below `2^63`. -/
theorem State.Inv.advance (h : s.Inv) (hactive : s.active = true) (hip : s.ip.toNat < s.progLen) : s.advance.Inv := by
  have hN : s.progLen < 2 ^ 63 := h.program hactive
  refine h.setIp ?_
  have hone : (1 : BitVec 64).toNat = 1 := rfl
  rw [BitVec.toNat_add, hone]
  omega

/-! ### The beginnings and the ends of a run -/

/-- In an idle core the clauses about a run say nothing. -/
theorem State.Inv.endRun (h : s.Inv) : s.endRun.Inv :=
  { h with ip_le := nofun, program := nofun, err_idle := fun _ => rfl }

/-- An error stands in an idle core (R26 (g)). -/
theorem State.Inv.raise (h : s.Inv) (e : ErrorCode) : (s.raise e).Inv :=
  { h with ip_le := nofun, program := nofun, err_idle := fun _ => rfl }

/-- START begins at index 0 without an error. -/
theorem State.Inv.beginRun (h : s.Inv) (hN : s.progLen < 2 ^ 63) : s.beginRun.Inv :=
  { h with ip_le := fun _ => Nat.zero_le _, program := fun _ => hN, err_idle := fun herr => absurd rfl herr }

/-- A reset with a legal NREG and capacity gives a state with the invariant: an idle core with an empty stack. -/
theorem State.Inv.afterReset {nreg cap : Nat} (hnreg : WellFormedRegisterCount nreg) (hcap : WellFormedCapacity cap)
    (preflight : Bool) (pins : Pins) (count : Nat) : (State.afterReset nreg preflight cap pins count).Inv where
  registers := by simpa [State.nreg, State.afterReset] using hnreg
  capacity := hcap
  size_le := Nat.zero_le _
  slots_wf := Memory.wf_nil
  slots_lt := nofun
  written := nofun
  ip_le := nofun
  program := nofun
  err_idle := fun _ => rfl

/-! ### Effects and events -/

/-- Every effect of an instruction in a run, with `ip` inside the program, keeps the invariant. -/
theorem Effect.inv (h : Effect s i t) (hinv : s.Inv) (hactive : s.active = true) (hip : s.ip.toNat < s.progLen) :
    t.Inv := by
  cases h with
  | raises _ e => exact hinv.raise e
  | pushes _ v _ _ room => exact (hinv.pushed room v).advance hactive hip
  | drops => exact (hinv.setSize (Nat.sub_le _ _)).advance hactive hip
  | replaces _ v _ _ _ inside =>
    exact ((hinv.setSlot inside v).setSize (Nat.sub_le s.size 1)).advance hactive hip
  | popsInto _ r v => exact ((hinv.setReg r v).setSize (Nat.sub_le s.size 1)).advance hactive hip
  | sets _ r v => exact (hinv.setReg r v).advance hactive hip
  | flags _ f => exact (hinv.setCf f).advance hactive hip
  | outputs _ v => exact (hinv.setOut v).advance hactive hip
  | jumps _ imm _ _ low high =>
    have htarget := toNat_eq_toInt_of_nonneg low
    exact hinv.setIp (by omega)
  | advances => exact hinv.advance hactive hip
  | halts => exact hinv.setHalted

/-- Every event of a clock edge keeps the invariant. -/
theorem Event.inv (h : Event s t) (hinv : s.Inv) : t.Inv := by
  cases h with
  | resets _ cap => exact .afterReset hinv.registers (Nat.one_le_iff_ne_zero.mpr cap) _ _ _
  | idles => exact hinv
  | begins _ _ _ program => exact hinv.beginRun program
  | failsPreflight _ _ _ program => exact (hinv.beginRun program).raise _
  | ends => exact hinv.endRun
  | raises _ _ e => exact hinv.raise e
  | executes _ _ about effect => exact effect.inv hinv about.active_eq about.ip_lt

end Sys2Proof.Machine
end

section
/-!
SUPPORT. That an instruction completes when `S` is at most `C` (`spec/20_memory.md` R30): each operand form goes on to a
next state if what follows it does.
-/

namespace Sys2Proof.Machine

variable {s : State}

/-- A register operand is present, or raises. -/
theorem withReg_completes {r : Reg} {k : Word → Result} (hk : ∀ x, ∃ t, k x = .next t) :
    ∃ t, withReg s r k = .next t := by
  cases hr : s.reg? r with
  | none => exact ⟨_, withReg_of_none hr k⟩
  | some x => exact withReg_of_some hr k ▸ hk x

/-- The top of a stack with `S` at most `C` is inside the stack, or there is none. -/
theorem withTop_completes (hcap : s.size ≤ s.cap) {k : Word → Result} (hk : ∀ v, ∃ t, k v = .next t) :
    ∃ t, withTop s k = .next t := by
  obtain hempty | hpos := Nat.eq_zero_or_pos s.size
  · exact ⟨_, withTop_of_empty hempty k⟩
  · exact withTop_of_pos hpos hcap k ▸ hk _

/-- The result of a binary operation on two values has its slot inside the stack. -/
theorem withTopTwo_completes (hcap : s.size ≤ s.cap) {k : Word → Word → Result}
    (hk : 2 ≤ s.size → ∀ a b, ∃ t, k a b = .next t) : ∃ t, withTopTwo s k = .next t := by
  obtain hfew | htwo := Nat.lt_or_ge s.size 2
  · exact ⟨_, withTopTwo_of_lt hfew k⟩
  · exact withTopTwo_of_two_le htwo hcap k ▸ hk htwo _ _

/-- A push has room, or raises. -/
theorem pushValue_completes (v : Word) : ∃ t, pushValue s v = .next t := by
  obtain hroom | hfull := Nat.lt_or_ge s.size s.cap
  · exact ⟨_, pushValue_of_lt hroom v⟩
  · exact ⟨_, pushValue_of_full hfull v⟩

/-- A jump is to a valid target, or raises. -/
theorem jumpTo_completes (imm : Word) : ∃ t, jumpTo s imm = .next t := by
  unfold jumpTo
  split <;> exact ⟨_, rfl⟩

/-- A conditional jump is a jump or an advance. -/
theorem condJump_completes (taken : Bool) (imm : Word) : ∃ t, condJump s taken imm = .next t := by
  cases taken with
  | true => exact jumpTo_completes imm
  | false => exact ⟨_, rfl⟩

/-- A binary operation raises or writes inside the stack. -/
theorem binary_completes (hcap : s.size ≤ s.cap) (f : Word → Word → Word) :
    ∃ t, withTopTwo s (fun a b => replaceTopTwo s (f a b)) = .next t :=
  withTopTwo_completes hcap fun htwo a b =>
    let ⟨t, ht, _⟩ := replaceTopTwo_completes htwo hcap (f a b)
    ⟨t, ht⟩

/-- With `S` at most `C` every instruction goes on to a next state. -/
theorem exec_completes (i : Instr) (hcap : s.size ≤ s.cap) : ∃ t, exec i s = .next t := by
  cases i with
  | push imm => exact pushValue_completes imm
  | pop =>
    obtain hempty | hpos := Nat.eq_zero_or_pos s.size
    · exact ⟨_, execPop_of_empty hempty⟩
    · exact ⟨_, execPop_of_pos hpos⟩
  | plus | minus | mult => exact binary_completes hcap _
  | div =>
    refine withTopTwo_completes hcap fun htwo a b => ?_
    split
    · exact ⟨_, rfl⟩
    · obtain ⟨t, ht, _⟩ := replaceTopTwo_completes htwo hcap (aluDiv a b)
      exact ⟨t, ht⟩
  | load ra | append ra | decrement ra => exact withReg_completes fun _ => withTop_completes hcap fun _ => ⟨_, rfl⟩
  | unload ra => exact withReg_completes pushValue_completes
  | move imm ra | appendVal imm ra | decrementVal imm ra | cmpVal imm ra | returnReg ra =>
    exact withReg_completes fun _ => ⟨_, rfl⟩
  | cmp ra rb => exact withReg_completes fun _ => withReg_completes fun _ => ⟨_, rfl⟩
  | jump imm => exact jumpTo_completes imm
  | jeq imm | jne imm | jgr imm | jge imm | jle imm | jls imm => exact condJump_completes _ imm
  | label | halt => exact ⟨_, rfl⟩
  | peek => exact withTop_completes hcap fun _ => ⟨_, rfl⟩

/-- With `S` at most `C` every pass of the run loop goes on to a next state. -/
theorem runStep_completes (hcap : s.size ≤ s.cap) : ∃ t, runStep s = .next t := by
  unfold runStep
  split
  · exact ⟨_, rfl⟩
  · split
    · exact ⟨_, rfl⟩
    · split
      · exact ⟨_, rfl⟩
      · exact exec_completes _ hcap

/-- A START of a legal program goes on, whatever the pre-flight check answers. -/
theorem startRun_completes (hN : s.progLen < 2 ^ 63) : ∃ t, startRun s = .next t := by
  rw [startRun, if_neg hN.not_ge]
  split <;> exact ⟨_, rfl⟩

/-- A reset with a legal capacity gives the reset state. -/
theorem resetCore_of_cap (hcap : s.pins.cap ≠ 0) :
    resetCore s = .next (State.afterReset s.nreg s.preflight s.pins.cap.toNat s.pins (s.resetCount + 1)) :=
  if_neg fun hzero => hcap (BitVec.eq_of_toNat_eq hzero)

/-- An idle core without reset or START holds its state (`spec/60_exceptions.md` R110). -/
theorem step_of_idle (hrst : s.pins.rst = false) (hidle : s.active = false) (hstart : s.pins.start = false) :
    step s = .next s := by
  simp [step, clockEdge, hrst, hidle, hstart]

/-- With `S` at most `C` and a legal host every clock edge goes on to a next state. -/
theorem step_completes (hcap : s.size ≤ s.cap) (hhost : s.HostLegal) : ∃ t, step s = .next t := by
  cases hrst : s.pins.rst with
  | true => exact ⟨_, (step_of_reset hrst).trans (resetCore_of_cap (hhost.cap_pos hrst))⟩
  | false =>
    cases hactive : s.active with
    | true => exact step_of_active hrst hactive ▸ runStep_completes hcap
    | false =>
      cases hstart : s.pins.start with
      | true => exact step_of_start hrst hactive hstart ▸ startRun_completes (hhost.program hstart)
      | false => exact ⟨s, step_of_idle hrst hactive hstart⟩

end Sys2Proof.Machine
end

section
/-!
PROOFS. The invariant (`spec/10_state.md` R26): it holds after a reset, every step keeps it, and no step from it stops.
-/

namespace Sys2Proof.Machine

/-- Settles O16: the invariant is kept by every event of a clock edge. -/
theorem stepKeepsTheInvariant : Obligations.StepKeepsTheInvariant :=
  fun _ _ hinv h => (step_event h).inv hinv

/-- Settles O17: the only part of the invariant it takes is that `S` is at most `C`. -/
theorem soundStatesNeverStop : Obligations.SoundStatesNeverStop :=
  fun _ hinv hhost => step_completes hinv.size_le hhost

/-- Settles O15: NREG and the capacity of the reset state are in range. -/
theorem resetStateMeetsTheInvariant : Obligations.ResetStateMeetsTheInvariant :=
  State.Inv.afterReset (by decide) (by decide) _ _ _

end Sys2Proof.Machine
end

section
/-!
SUPPORT. Relations between states that instructions cannot break: if two related states agree on what an instruction
reads and every update keeps them related, their outcomes stop alike or are related again. One theorem for `exec` and
one for the run loop serve three rules: that stale slots are unobservable (`spec/20_memory.md` R32), that only conditional
jumps read the compare flag (`spec/10_state.md` R16), and that a run does not read `start`
(`spec/70_reset_and_hazards.md` R115).
-/

namespace Sys2Proof.Machine

/-- Two outcomes that stop alike or go on to related states. -/
def RelatedOutcomes (R : State → State → Prop) : Result → Result → Prop
  | .next s, .next t => R s t
  | .fault e, .fault f => e = f
  | .refused e, .refused f => e = f
  | _, _ => False

/-- `R` relates states that agree on all an instruction reads but `cf`, and every update an instruction makes, but that
of `cf`, keeps states related. -/
structure Congruence (R : State → State → Prop) : Prop where
  regs {s t} (h : R s t) : t.regs = s.regs
  size {s t} (h : R s t) : t.size = s.size
  cap {s t} (h : R s t) : t.cap = s.cap
  ip {s t} (h : R s t) : t.ip = s.ip
  halted {s t} (h : R s t) : t.halted = s.halted
  program {s t} (h : R s t) : t.pins.program = s.pins.program
  /-- A slot below `S`. -/
  slot {s t} (h : R s t) {j : Nat} (hj : j < s.size) : t.slot j = s.slot j
  raise {s t} (h : R s t) (e : ErrorCode) : R (s.raise e) (t.raise e)
  endRun {s t} (h : R s t) : R s.endRun t.endRun
  setReg {s t} (h : R s t) (r : Reg) (v : Word) : R (s.setReg r v) (t.setReg r v)
  setSize {s t} (h : R s t) {n : Nat} (hn : n ≤ s.size) : R (s.setSize n) (t.setSize n)
  setSlot {s t} (h : R s t) {j : Nat} (hj : j < s.size) (v : Word) : R (s.setSlot j v) (t.setSlot j v)
  /-- `S` grows only over a slot written just now. -/
  pushed {s t} (h : R s t) (v : Word) :
    R ((s.setSlot s.size v).setSize (s.size + 1)) ((t.setSlot s.size v).setSize (s.size + 1))
  setOut {s t} (h : R s t) (v : Word) : R (s.setOut v) (t.setOut v)
  setIp {s t} (h : R s t) (a : BitVec 64) : R (s.setIp a) (t.setIp a)
  setHalted {s t} (h : R s t) : R s.setHalted t.setHalted

variable {R : State → State → Prop} {s t : State}

/-! ### The views and the operand forms -/

/-- Related states read every register alike. -/
theorem Congruence.reg (hR : Congruence R) (h : R s t) (r : Reg) : t.reg? r = s.reg? r :=
  congrArg (·[r.index]?) (hR.regs h)

/-- Related states have the same NREG. -/
theorem Congruence.nreg (hR : Congruence R) (h : R s t) : t.nreg = s.nreg := congrArg List.length (hR.regs h)

/-- Related states have programs of the same length. -/
theorem Congruence.progLen (hR : Congruence R) (h : R s t) : t.progLen = s.progLen :=
  congrArg List.length (hR.program h)

/-- Related states fetch the same word. -/
theorem Congruence.fetch (hR : Congruence R) (h : R s t) : t.fetch = s.fetch := by
  rw [State.fetch, State.fetch, hR.program h, hR.ip h]

/-- The advance of `ip` is a move of it to the same place. -/
theorem Congruence.advance (hR : Congruence R) (h : R s t) : R s.advance t.advance := by
  rw [State.advance, State.advance, hR.ip h]
  exact hR.setIp h _

/-- A register operand, if what follows it is related for every value. -/
theorem Congruence.withReg (hR : Congruence R) (h : R s t) (r : Reg) {k k' : Word → Result}
    (hk : ∀ x, RelatedOutcomes R (k x) (k' x)) : RelatedOutcomes R (withReg s r k) (withReg t r k') := by
  have hreg := hR.reg h r
  cases hr : s.reg? r with
  | none =>
    rw [withReg_of_none hr, withReg_of_none (hreg.trans hr)]
    exact hR.raise h _
  | some x =>
    rw [withReg_of_some hr, withReg_of_some (hreg.trans hr)]
    exact hk x

/-- A read below `S`. -/
theorem Congruence.memRead (hR : Congruence R) (h : R s t) {j : Nat} (hj : j < s.size) {k k' : Word → Result}
    (hk : ∀ v, RelatedOutcomes R (k v) (k' v)) : RelatedOutcomes R (memRead s j k) (memRead t j k') := by
  rw [Machine.memRead, Machine.memRead, hR.cap h, hR.slot h hj]
  split
  · exact hk _
  · rfl

/-- The top of the stack, which is below `S`. -/
theorem Congruence.withTop (hR : Congruence R) (h : R s t) {k k' : Word → Result}
    (hk : ∀ v, RelatedOutcomes R (k v) (k' v)) : RelatedOutcomes R (withTop s k) (withTop t k') := by
  rw [Machine.withTop, Machine.withTop, hR.size h]
  split
  · exact hR.raise h _
  · exact hR.memRead h (by omega) hk

/-- The two top slots, which are below `S`. -/
theorem Congruence.withTopTwo (hR : Congruence R) (h : R s t) {k k' : Word → Word → Result}
    (hk : 2 ≤ s.size → ∀ a b, RelatedOutcomes R (k a b) (k' a b)) :
    RelatedOutcomes R (withTopTwo s k) (withTopTwo t k') := by
  rw [Machine.withTopTwo, Machine.withTopTwo, hR.size h]
  split
  · exact hR.raise h _
  · next htwo =>
    have htwo : 2 ≤ s.size := Nat.not_lt.mp htwo
    exact hR.memRead h (by omega) fun a => hR.memRead h (by omega) fun b => hk htwo a b

/-- A push, which writes the slot at `S`. -/
theorem Congruence.pushValue (hR : Congruence R) (h : R s t) (v : Word) :
    RelatedOutcomes R (pushValue s v) (pushValue t v) := by
  rw [Machine.pushValue, Machine.pushValue, hR.size h, hR.cap h]
  split
  · exact hR.raise h _
  · rw [memWrite_of_lt (by omega), memWrite_of_lt (by rw [hR.cap h]; omega)]
    exact hR.advance (hR.pushed h v)

/-- The write of a binary operation's result, below `S`. -/
theorem Congruence.replaceTopTwo (hR : Congruence R) (h : R s t) (htwo : 2 ≤ s.size) (v : Word) :
    RelatedOutcomes R (replaceTopTwo s v) (replaceTopTwo t v) := by
  rw [Machine.replaceTopTwo, Machine.replaceTopTwo, memWrite, memWrite, hR.size h, hR.cap h]
  split
  · exact hR.advance (hR.setSize (hR.setSlot h (by omega) v) (Nat.sub_le s.size 1))
  · rfl

/-- A jump, which reads the length of the program only. -/
theorem Congruence.jumpTo (hR : Congruence R) (h : R s t) (imm : Word) :
    RelatedOutcomes R (jumpTo s imm) (jumpTo t imm) := by
  rw [Machine.jumpTo, Machine.jumpTo, hR.progLen h]
  split
  · exact hR.raise h _
  · exact hR.setIp h imm

/-- A conditional jump, on a test `c` of a flag the states agree on. -/
theorem Congruence.condJump (hR : Congruence R) (h : R s t) (hcf : t.cf = s.cf) (c : CompareFlag → Bool)
    (imm : Word) : RelatedOutcomes R (condJump s (c s.cf) imm) (condJump t (c t.cf) imm) := by
  rw [hcf]
  cases c s.cf with
  | true => exact hR.jumpTo h imm
  | false => exact hR.advance h

/-! ### Instructions and the run loop -/

/-- The write of a value popped from the stack into a register. -/
theorem Congruence.popped (hR : Congruence R) (h : R s t) (r : Reg) (v : Word) :
    R ((s.setReg r v).setSize (s.size - 1)).advance ((t.setReg r v).setSize (t.size - 1)).advance := by
  rw [hR.size h]
  exact hR.advance (hR.setSize (hR.setReg h r v) (Nat.sub_le s.size 1))

/-- Instructions keep a congruence: compares if it survives a write of `cf`, conditional jumps if the states agree on
`cf`. -/
theorem Congruence.exec (hR : Congruence R) (h : R s t) (i : Instr)
    (hcompare : i.isCompare = true → ∀ f, R (s.setCf f) (t.setCf f))
    (hjump : i.isConditionalJump = true → t.cf = s.cf) : RelatedOutcomes R (exec i s) (exec i t) := by
  cases i with
  | push imm => exact hR.pushValue h imm
  | pop =>
    simp only [Machine.exec, execPop, hR.size h]
    split
    · exact hR.raise h _
    · exact hR.advance (hR.setSize h (Nat.sub_le s.size 1))
  | plus | minus | mult => exact hR.withTopTwo h fun htwo _ _ => hR.replaceTopTwo h htwo _
  | div =>
    refine hR.withTopTwo h fun htwo a b => ?_
    split
    · exact hR.raise h _
    · exact hR.replaceTopTwo h htwo _
  | load ra | append ra | decrement ra => exact hR.withReg h ra fun _ => hR.withTop h fun _ => hR.popped h ra _
  | unload ra => exact hR.withReg h ra (hR.pushValue h)
  | move imm ra | appendVal imm ra | decrementVal imm ra =>
    exact hR.withReg h ra fun _ => hR.advance (hR.setReg h ra _)
  | cmp ra rb => exact hR.withReg h ra fun _ => hR.withReg h rb fun _ => hR.advance (hcompare rfl _)
  | cmpVal imm ra => exact hR.withReg h ra fun _ => hR.advance (hcompare rfl _)
  | jump imm => exact hR.jumpTo h imm
  | jeq imm | jne imm | jgr imm | jge imm | jle imm | jls imm =>
    exact hR.condJump h (hjump rfl) _ imm
  | label => exact hR.advance h
  | halt => exact hR.setHalted h
  | peek => exact hR.withTop h fun v => hR.advance (hR.setOut h v)
  | returnReg ra => exact hR.withReg h ra fun x => hR.advance (hR.setOut h x)

/-- The run loop keeps a congruence that survives a write of `cf`, in states that agree on `cf`. -/
theorem Congruence.runStep (hR : Congruence R) (h : R s t) (hsetCf : ∀ f, R (s.setCf f) (t.setCf f))
    (hcf : t.cf = s.cf) : RelatedOutcomes R (runStep s) (runStep t) := by
  cases hhalted : s.halted with
  | true =>
    rw [runStep_of_halted hhalted, runStep_of_halted ((hR.halted h).trans hhalted)]
    exact hR.endRun h
  | false =>
    have hhalted' := (hR.halted h).trans hhalted
    cases hfetch : s.fetch with
    | none =>
      have hip := fetch_eq_none.mp hfetch
      rw [runStep_of_outside hhalted hip, runStep_of_outside hhalted' (by rwa [hR.progLen h, hR.ip h])]
      exact hR.raise h _
    | some w =>
      have hfetch' := (hR.fetch h).trans hfetch
      cases hdecode : decode s.nreg w with
      | error e =>
        rw [runStep_of_unknown hhalted hfetch hdecode,
          runStep_of_unknown hhalted' hfetch' (by rwa [hR.nreg h])]
        exact hR.raise h _
      | ok i =>
        rw [runStep_of_decoded hhalted hfetch hdecode,
          runStep_of_decoded hhalted' hfetch' (by rwa [hR.nreg h])]
        exact hR.exec h i (fun _ => hsetCf) (fun _ => hcf)

end Sys2Proof.Machine
end

section
/-!
SUPPORT. The three congruences: states that differ in stale slots, in the compare flag, and in the `start` input.
-/

namespace Sys2Proof.Machine

variable {s t : State}

/-! ### Stale slots (`spec/20_memory.md` R32) -/

/-- States equal but for stale slots stay so under an update that neither reads nor writes the slots and does not raise
`S`. -/
theorem State.SameButStale.update (h : s.SameButStale t) {f : State → State}
    (hf : ∀ m, f { s with slots := m } = { f s with slots := m }) (hsize : (f s).size ≤ s.size)
    (hcount : (f s).resetCount = s.resetCount) : (f s).SameButStale (f t) := by
  obtain ⟨ht, hslot⟩ := h
  have hs : f s = { f s with slots := s.slots } := hf s.slots
  have hft : f t = { f s with slots := t.slots } := (congrArg f ht).trans (hf t.slots)
  have hcount' : t.resetCount = s.resetCount := by rw [ht]
  refine ⟨by rw [hft], fun k hk => ?_⟩
  have hk := hslot k (hk.trans_le hsize)
  rw [hft, hs]
  simpa only [State.slot, hcount, hcount'] using hk

/-- A write of the same slot leaves states equal but for stale slots, and makes that slot equal too. -/
theorem State.SameButStale.slot_setSlot (h : s.SameButStale t) {j k : Nat} (v : Word) (hk : k = j ∨ k < s.size) :
    (t.setSlot j v).slot k = (s.setSlot j v).slot k := by
  rw [State.slot_setSlot, State.slot_setSlot]
  split
  · rfl
  · next hne => exact h.2 k (hk.resolve_left hne)

/-- What stands in stale slots cannot be told. -/
theorem State.SameButStale.congruence : Congruence State.SameButStale where
  regs h := by rw [h.1]
  size h := by rw [h.1]
  cap h := by rw [h.1]
  ip h := by rw [h.1]
  halted h := by rw [h.1]
  program h := by rw [h.1]
  slot h _ hj := h.2 _ hj
  raise h e := h.update (f := (·.raise e)) (fun _ => rfl) le_rfl rfl
  endRun h := h.update (f := State.endRun) (fun _ => rfl) le_rfl rfl
  setReg h r v := h.update (f := (·.setReg r v)) (fun _ => rfl) le_rfl rfl
  setSize h n hn := h.update (f := (·.setSize n)) (fun _ => rfl) hn rfl
  setSlot h j _ v := ⟨by rw [h.1]; rfl, fun _ hk => h.slot_setSlot v (.inr hk)⟩
  pushed h v := ⟨by rw [h.1]; rfl, fun _ hk => h.slot_setSlot v (Nat.lt_succ_iff_lt_or_eq.mp hk).symm⟩
  setOut h v := h.update (f := (·.setOut v)) (fun _ => rfl) le_rfl rfl
  setIp h a := h.update (f := (·.setIp a)) (fun _ => rfl) le_rfl rfl
  setHalted h := h.update (f := State.setHalted) (fun _ => rfl) le_rfl rfl

/-- The outcomes of the statement are those of the relation. -/
theorem sameOutcomeButStale_iff {r q : Result} :
    SameOutcomeButStale r q ↔ RelatedOutcomes State.SameButStale r q := by
  cases r <;> cases q <;> rfl

/-- A START of states equal but for stale slots. -/
theorem State.SameButStale.startRun (h : s.SameButStale t) :
    RelatedOutcomes State.SameButStale (startRun s) (startRun t) := by
  have hbegin : s.beginRun.SameButStale t.beginRun := h.update (fun _ => rfl) le_rfl rfl
  have hpins : t.pins = s.pins := by rw [h.1]
  have hpreflight : t.preflight = s.preflight := by rw [h.1]
  rw [Machine.startRun, Machine.startRun, State.SameButStale.congruence.progLen h, hpins, hpreflight]
  split
  · rfl
  · split
    · exact State.SameButStale.congruence.raise hbegin _
    · exact hbegin

/-- A reset of states equal but for stale slots gives the same state, since it drops all slots. -/
theorem State.SameButStale.resetCore (h : s.SameButStale t) :
    RelatedOutcomes State.SameButStale (resetCore s) (resetCore t) := by
  have hreset : Machine.resetCore t = Machine.resetCore s := by rw [h.1]; rfl
  rw [hreset, Machine.resetCore]
  split
  · rfl
  · exact ⟨rfl, fun _ _ => rfl⟩

/-- Every clock edge of states equal but for stale slots is the same event. -/
theorem State.SameButStale.step (h : s.SameButStale t) :
    RelatedOutcomes State.SameButStale (step s) (step t) := by
  have hpins : t.pins = s.pins := by rw [h.1]
  have hactive : t.active = s.active := by rw [h.1]
  have hsetCf (f : CompareFlag) : (s.setCf f).SameButStale (t.setCf f) :=
    h.update (f := (·.setCf f)) (fun _ => rfl) le_rfl rfl
  rw [Machine.step, Machine.step, clockEdge, clockEdge, hpins, hactive]
  split
  · exact h.resetCore
  · split
    · exact State.SameButStale.congruence.runStep h hsetCf (by rw [h.1])
    · split
      · exact h.startRun
      · exact h

/-! ### The compare flag and the `start` input -/

/-- States that differ in the flag alone: no update but the flag's own reads or writes it. -/
theorem congruence_setCf (f : CompareFlag) : Congruence (fun s t => t = s.setCf f) := by
  constructor <;> (rintro s _ rfl; intros; rfl)

/-- The state with another `start` input. -/
def State.setStart (s : State) (b : Bool) : State := { s with pins := { s.pins with start := b } }

/-- States that differ in the `start` input alone: no update reads or writes it. -/
theorem congruence_setStart (b : Bool) : Congruence (fun s t => t = s.setStart b) := by
  constructor <;> (rintro s _ rfl; intros; rfl)

/-- An outcome related to a next state is a next state. -/
theorem RelatedOutcomes.exists_next {R : State → State → Prop} {q : Result} (h : RelatedOutcomes R (.next s) q) :
    ∃ t, q = .next t ∧ R s t := by
  cases q with
  | next t => exact ⟨t, rfl, h⟩
  | fault => exact h.elim
  | refused => exact h.elim

/-- A compare of registers the core has goes on without an error, from another flag to the same state. -/
theorem exec_setCf_of_isCompare {i : Instr} (hcompare : i.isCompare = true) (hwf : WellFormed s.nreg i)
    (f : CompareFlag) : exec i (s.setCf f) = exec i s := by
  cases i with
  | cmp ra rb =>
    obtain ⟨xa, ha⟩ := State.reg_of_lt (hwf ra (by simp [Instr.regs]))
    obtain ⟨xb, hb⟩ := State.reg_of_lt (hwf rb (by simp [Instr.regs]))
    rw [exec_cmp_of_reg ha hb, exec_cmp_of_reg (s := s.setCf f) ha hb]
    rfl
  | cmpVal imm ra =>
    obtain ⟨xa, ha⟩ := State.reg_of_lt (hwf ra (by simp [Instr.regs]))
    rw [exec_cmpVal_of_reg ha, exec_cmpVal_of_reg (s := s.setCf f) ha]
    rfl
  | _ => cases hcompare

/-- An instruction that neither writes nor reads the flag carries another flag through. -/
theorem exec_setCf_of_not_isCompare {i : Instr} (hcompare : i.isCompare = false)
    (hjump : i.isConditionalJump = false) (h : exec i s = .next t) (f : CompareFlag) :
    exec i (s.setCf f) = .next (t.setCf f) := by
  have hrelated := (congruence_setCf f).exec (s := s) rfl i (by simp [hcompare]) (by simp [hjump])
  rw [h] at hrelated
  obtain ⟨_, hnext, rfl⟩ := hrelated.exists_next
  exact hnext

/-- A pass of the run loop carries another `start` input through. -/
theorem runStep_setStart (h : runStep s = .next t) (b : Bool) : runStep (s.setStart b) = .next (t.setStart b) := by
  have hrelated := (congruence_setStart b).runStep (s := s) rfl (fun _ => rfl) rfl
  rw [h] at hrelated
  obtain ⟨_, hnext, rfl⟩ := hrelated.exists_next
  exact hnext

end Sys2Proof.Machine
end

section
/-!
PROOFS. What a program cannot tell: stale slots (`spec/20_memory.md` R32), the compare flag except by a conditional jump
(`spec/10_state.md` R16), and START during a run (`spec/70_reset_and_hazards.md` R115).
-/

namespace Sys2Proof.Machine

/-- Settles O28: equality but for stale slots is a congruence of the run loop, and reset and START keep it too. -/
theorem staleSlotsAreUnobservable : Obligations.StaleSlotsAreUnobservable :=
  fun _ _ h => sameOutcomeButStale_iff.mpr h.step

/-- Settles O20: a compare overwrites the flag it finds, and every other instruction in question carries it through. -/
theorem compareFlagIsReadOnlyByConditionalJumps : Obligations.CompareFlagIsReadOnlyByConditionalJumps := by
  intro i s t f hwf hjump h
  cases hcompare : i.isCompare with
  | true => exact (exec_setCf_of_isCompare hcompare hwf f).trans h
  | false => exact exec_setCf_of_not_isCompare hcompare hjump h f

/-- Settles O12: reset is tested first, and the run loop carries the `start` input through. -/
theorem eventPrecedence : Obligations.EventPrecedence := by
  refine ⟨fun s hrst hcap => ?reset, fun s t b hrst hactive h => ?start⟩
  case reset => exact (step_of_reset hrst).trans (resetCore_of_cap hcap)
  case start =>
    rw [step_of_active hrst hactive] at h
    exact (step_of_active (s := s.setStart b) hrst hactive).trans (runStep_setStart h b)

end Sys2Proof.Machine
end

section
/-!
SUPPORT. The whole-machine rules of `spec/10_state.md` as facts about the effect of an instruction: what each effect
leaves of the registers, the flag, the output, the size and the configuration.
-/

namespace Sys2Proof.Machine

variable {s t : State} {i : Instr}

/-- No effect touches PREFLIGHT, the inputs, the capacity or NREG. -/
theorem Effect.keeps_configuration (h : Effect s i t) :
    t.nreg = s.nreg ∧ t.preflight = s.preflight ∧ t.pins = s.pins ∧ t.cap = s.cap := by
  cases h with
  | popsInto _ r v | sets _ r v => exact ⟨s.setReg_nreg r v, rfl, rfl, rfl⟩
  | _ => exact ⟨rfl, rfl, rfl, rfl⟩

/-- No effect touches the flag but that of a compare. -/
theorem Effect.cf_eq_or_isCompare (h : Effect s i t) : t.cf = s.cf ∨ i.isCompare = true := by
  cases h with
  | flags _ _ _ _ compare => exact .inr compare
  | _ => exact .inl rfl

/-- No effect touches the output but that of `peek` and `return`. -/
theorem Effect.out_eq_or_isOutput (h : Effect s i t) : t.out = s.out ∨ i.isOutput = true := by
  cases h with
  | outputs _ _ _ _ output => exact .inr output
  | _ => exact .inl rfl

/-- No effect touches a register but the one its row of R11's table names. -/
theorem Effect.reg_eq (h : Effect s i t) {r : Reg} (hr : r ∉ i.writtenRegs) : t.reg? r = s.reg? r := by
  cases h with
  | popsInto _ q v _ written _ _ _ present | sets _ q v _ written _ present =>
    have hne : r ≠ q := by simpa [written] using hr
    exact (State.reg_setReg s r q v present).trans (if_neg hne)
  | _ => rfl

/-- Without an error the size after an effect is the tabled one (R21). -/
theorem Effect.raises_or_sizeAfter (h : Effect s i t) :
    (∃ e, e ≠ .noError ∧ t = s.raise e) ∨ (t.active = s.active ∧ t.size = i.sizeAfter s.size) := by
  cases h with
  | raises _ e error => exact .inl ⟨e, error, rfl⟩
  | drops | halts => exact .inr ⟨rfl, rfl⟩
  | pushes _ _ size | replaces _ _ size | popsInto _ _ _ size | sets _ _ _ size | flags _ _ size
  | outputs _ _ size | jumps _ _ size | advances _ size => exact .inr ⟨rfl, (size _).symm⟩

/-- An instruction whose registers the core has raises an error of its row, or goes on with `err` as it was. -/
theorem Effect.raises_tabled_or_goesOn (h : Effect s i t) (hwf : WellFormed s.nreg i) :
    (t.active = false ∧ t.err ∈ mayRaise i) ∨ (t.active = s.active ∧ t.err = s.err) := by
  cases h with
  | raises _ e _ listed => exact .inl ⟨rfl, listed.resolve_right fun habsent => habsent.2 hwf⟩
  | _ => exact .inr ⟨rfl, rfl⟩

/-- An instruction that names an absent register raises UnknownOperation, its first check. -/
theorem exec_of_absent (h : ¬ WellFormed s.nreg i) : exec i s = .next (s.raise .unknownOperation) := by
  have habsent {r : Reg} (hr : ¬ r.index < s.nreg) : s.reg? r = none := State.reg_eq_none.mpr (Nat.not_lt.mp hr)
  cases i with
  | move imm ra | load ra | unload ra | append ra | appendVal imm ra | decrement ra | decrementVal imm ra
  | cmpVal imm ra | returnReg ra =>
    exact withReg_of_none (habsent (by simpa [WellFormed, Instr.regs] using h)) _
  | cmp ra rb =>
    have hone : ra.index < s.nreg → ¬ rb.index < s.nreg := by simpa [WellFormed, Instr.regs] using h
    cases hra : s.reg? ra with
    | none => exact withReg_of_none hra _
    | some x => exact (withReg_of_some hra _).trans (withReg_of_none (habsent (hone (State.lt_of_reg hra))) _)
  | _ => simp [WellFormed, Instr.regs] at h

end Sys2Proof.Machine
end

section
/-!
PROOFS. The whole-machine rules of `spec/10_state.md` (R11, R16, R19, R21 to R24), of `spec/60_exceptions.md` (R90) and
of `spec/30_encoding.md` (R48), by cases on the event of a clock edge and the effect of an instruction.
-/

namespace Sys2Proof.Machine

/-- Settles O19: of the events but a reset only an instruction can touch the flag, and only a compare does. -/
theorem compareFlagIsWrittenOnlyByCompares : Obligations.CompareFlagIsWrittenOnlyByCompares := by
  intro s t h hchanged
  cases step_event h with
  | resets rst => exact .inl rst
  | executes i _ about effect => exact .inr ⟨i, about, effect.cf_eq_or_isCompare.resolve_left hchanged⟩
  | _ => exact absurd rfl hchanged

/-- Settles O21: START writes OUT_INIT, pre-flight error or not, and of the instructions only the two outputs write. -/
theorem outIsWrittenOnlyByStartPeekAndReturn : Obligations.OutIsWrittenOnlyByStartPeekAndReturn := by
  intro s t h hchanged
  cases step_event h with
  | resets rst => exact .inl rst
  | begins _ idle start | failsPreflight _ idle start => exact .inr (.inl ⟨idle, start, rfl⟩)
  | executes i _ about effect => exact .inr (.inr ⟨i, about, effect.out_eq_or_isOutput.resolve_left hchanged⟩)
  | _ => exact absurd rfl hchanged

/-- Settles O22, effect by effect. -/
theorem registersAreWrittenOnlyAsTabled : Obligations.RegistersAreWrittenOnlyAsTabled := by
  intro i s t h
  obtain ⟨hnreg, _⟩ := (exec_next h).keeps_configuration
  exact ⟨hnreg, fun _ => (exec_next h).reg_eq⟩

/-- Settles O23: a reset keeps the configuration and the inputs, and samples the capacity; all else keeps all four. -/
theorem stepKeepsConfigurationAndProgram : Obligations.StepKeepsConfigurationAndProgram := by
  intro s t h
  cases step_event h with
  | resets rst => exact ⟨List.length_replicate, rfl, rfl, fun hrst => absurd (rst.symm.trans hrst) (by decide)⟩
  | executes _ _ _ effect =>
    obtain ⟨hnreg, hpreflight, hpins, hcap⟩ := effect.keeps_configuration
    exact ⟨hnreg, hpreflight, hpins, fun _ => hcap⟩
  | _ => exact ⟨rfl, rfl, rfl, fun _ => rfl⟩

/-- Settles O25: the error that is in no row needs an absent register. -/
theorem onlyTabledErrorsAreRaised : Obligations.OnlyTabledErrorsAreRaised := by
  intro i s t hwf hactive h
  obtain hraises | ⟨hgoesOn, herr⟩ := (exec_next h).raises_tabled_or_goesOn hwf
  · exact .inr hraises
  · exact .inl ⟨hgoesOn.trans hactive, herr⟩

/-- Settles O27: an error ends the run with `S` as it was, every other effect goes on with `S` as tabled. -/
theorem stackSizeMovesAsTabled : Obligations.StackSizeMovesAsTabled := by
  intro i s t hactive h
  obtain ⟨_, _, _, hcap⟩ := (exec_next h).keeps_configuration
  refine ⟨hcap, ?size⟩
  obtain ⟨e, _, rfl⟩ | ⟨hgoesOn, hsize⟩ := (exec_next h).raises_or_sizeAfter
  · exact ⟨fun hon => by simp at hon, fun _ => State.raise_size s e⟩
  · exact ⟨fun _ => hsize, fun hoff => by simp [hgoesOn, hactive] at hoff⟩

/-- Settles O29: the register operands are checked before everything else. -/
theorem absentRegisterRaisesUnknownOperation : Obligations.AbsentRegisterRaisesUnknownOperation :=
  fun _ _ => exec_of_absent

end Sys2Proof.Machine
end

section
/-!
SUPPORT. The registers after a reset (`spec/10_state.md` R25), the ports as functions of one register each (R24), and
the result that the end of a run gives (`spec/70_reset_and_hazards.md` R119).
-/

namespace Sys2Proof.Machine

/-- Every register of a core that was reset is 0. -/
theorem State.afterReset_reg {nreg : Nat} {r : Reg} (h : r.index < nreg) (preflight : Bool) (cap : Nat) (pins : Pins)
    (count : Nat) : (State.afterReset nreg preflight cap pins count).reg? r = some 0 :=
  List.getElem?_replicate_of_lt h

/-- The codes of the errors are 0 to 8 (R90). -/
theorem ErrorCode.code_le (e : ErrorCode) : e.code.toNat ≤ 8 := by cases e <;> decide

/-- The flag's two bits are never `0b10` (R16). -/
theorem CompareFlag.bits_ne (f : CompareFlag) : f.bits ≠ 0b10#2 := by cases f <;> decide

/-- The flag's two bits are the two's complement of its number (R16). -/
theorem CompareFlag.bits_eq_ofInt (f : CompareFlag) : f.bits = BitVec.ofInt 2 f.toInt := by cases f <;> rfl

/-- The error port shows the code of `err`. -/
theorem State.errPort_of_err {e : ErrorCode} {s : State} (h : s.err = e) : s.errPort = e.code := congrArg _ h

/-- The flag's debug port shows the two's complement of the flag's number. -/
theorem State.dbgCf_of_toInt {s : State} {n : Int} (h : s.cf.toInt = n) : s.dbgCf = BitVec.ofInt 2 n :=
  s.cf.bits_eq_ofInt.trans (congrArg _ h)

/-- A one-bit port shows its register. -/
theorem ofBool_eq_ite (b : Bool) : BitVec.ofBool b = if b = true then 1#1 else 0#1 := by cases b <;> rfl

/-- A register's index fits the three bits of the debug port. -/
theorem toNat_ofNat_index (r : Reg) : (BitVec.ofNat 3 r.index).toNat = r.index := by cases r <;> rfl

/-- The step that ends a run gives its result, with `ip` where it stood, and is a success only in a halted core. -/
theorem runResult_of_ends {s t : State} (hrst : s.pins.rst = false) (hactive : s.active = true)
    (h : step s = .next t) (hends : t.active = false) :
    t.runResult = some (s.out, t.err) ∧ t.ip = s.ip ∧ (t.err = .noError → s.halted = true ∧ t.halted = true) := by
  have hraise (e : ErrorCode) (he : e ≠ .noError) : (s.raise e).runResult = some (s.out, e) ∧
      (s.raise e).ip = s.ip ∧ ((s.raise e).err = .noError → s.halted = true ∧ (s.raise e).halted = true) :=
    ⟨State.raise_runResult he, rfl, fun hnone => absurd hnone he⟩
  obtain ⟨hhalted, rfl⟩ | ⟨e, he, rfl⟩ | ⟨i, _, hexec⟩ := step_active_next hrst hactive h
  · exact ⟨State.endRun_runResult hhalted, rfl, fun _ => ⟨hhalted, hhalted⟩⟩
  · exact hraise e he
  · obtain ⟨e, he, rfl⟩ | ⟨hgoesOn, _⟩ := (exec_next hexec).raises_or_goesOn
    · exact hraise e he
    · simp [hgoesOn, hactive] at hends

end Sys2Proof.Machine
end

section
/-!
PROOFS. The sequencer's events (`spec/70_reset_and_hazards.md` R111 to R115, `spec/10_state.md` R25): the decoded
instruction, the idle core, reset, the requests outside the specification, and a second run of a halted core (R114).
-/

namespace Sys2Proof.Machine

/-- Settles O6: the word decodes to a well-formed instruction, and the run loop's step is its meaning. -/
theorem stepRunsTheDecodedInstruction : Obligations.StepRunsTheDecodedInstruction :=
  fun s w i hrst hactive hhalted hfetch hdecode =>
    ⟨(decode_ok hdecode).2,
     State.AboutToRun.step_eq_exec (s := s) (i := i) ⟨hrst, hactive, hhalted, w, hfetch, hdecode⟩⟩

/-- Settles O8: no event is left. -/
theorem idleCoreHoldsItsState : Obligations.IdleCoreHoldsItsState :=
  fun _ => step_of_idle

/-- Settles O9: the clock edge is a reset, and gives the state after reset. -/
theorem resetGivesTheResetValues : Obligations.ResetGivesTheResetValues :=
  fun _ hrst hcap => ⟨_, (step_of_reset hrst).trans (resetCore_of_cap hcap),
    fun _ hr => State.afterReset_reg hr _ _ _ _, List.length_replicate,
    rfl, rfl, rfl, rfl, rfl, rfl, rfl, rfl, rfl, rfl⟩

/-- Settles O10: the fixed reset state is one of the states after reset. -/
theorem resetStateHoldsTheResetValues : Obligations.ResetStateHoldsTheResetValues :=
  ⟨fun _ hr => State.afterReset_reg (by simpa [State.nreg, State.reset, State.afterReset] using hr) _ _ _ _,
    rfl, rfl, rfl, rfl, rfl, rfl, rfl, rfl⟩

/-- Settles O13: each request is refused before anything is written. -/
theorem illegalHostRequestsAreRefused : Obligations.IllegalHostRequestsAreRefused := by
  refine ⟨fun s hrst hcap => ?reset, fun s hrst hidle hstart hN => ?start⟩
  case reset => exact (step_of_reset hrst).trans (if_pos (by rw [hcap]; rfl))
  case start => exact (step_of_start hrst hidle hstart).trans (if_pos hN)

/-- Settles O14: START carries `halted` over, so the run loop's first test ends the run. -/
theorem secondRunOfAHaltedCoreExecutesNothing : Obligations.SecondRunOfAHaltedCoreExecutesNothing := by
  intro s hrst hidle hstart hN hpass hhalted
  have hbegin : step s = .next s.beginRun := (startBeginsTheRun s hrst hidle hstart hN).1 hpass
  exact ⟨s.beginRun, hbegin, rfl, step_of_halted (s := s.beginRun) hrst rfl hhalted⟩

end Sys2Proof.Machine
end

section
/-!
PROOFS. The ports (`spec/10_state.md` R24, `spec/60_exceptions.md` R109) and the end of a run
(`spec/70_reset_and_hazards.md` R119, R120).
-/

namespace Sys2Proof.Machine

/-- Settles O30: each port is a function of one register. -/
theorem portsShowOnlyLegalCodes : Obligations.PortsShowOnlyLegalCodes :=
  fun s => ⟨s.errPort_of_err, s.errPort_of_err, s.errPort_of_err, s.errPort_of_err, s.errPort_of_err, s.errPort_of_err,
    s.errPort_of_err, s.errPort_of_err, s.errPort_of_err, s.err.code_le, s.cf.bits_ne,
    s.dbgCf_of_toInt, s.dbgCf_of_toInt, s.dbgCf_of_toInt, rfl, rfl, ofBool_eq_ite s.halted, ofBool_eq_ite s.active⟩

/-- Settles O31: the views read the register file at the index and the slot below `S`. -/
theorem debugViewsReadTheState : Obligations.DebugViewsReadTheState :=
  fun s => ⟨fun r => congrArg (s.regs[·]?) (toNat_ofNat_index r), fun _ hi => if_pos hi⟩

/-- Settles O51: of the events only the end of a run, an error and a failed pre-flight check leave an idle core with a
result of its own. -/
theorem runResultIsGivenWhenTheRunIsOver : Obligations.RunResultIsGivenWhenTheRunIsOver := by
  refine ⟨State.afterReset_runResult _ _ _ _ _, fun s => State.runResult_of_active, fun s t hrst h => ?reset,
    fun s t => runResult_of_ends, fun s t hrst hidle hstart h hends => ?start,
    fun s t hrst hidle hstart h => ?idle⟩
  case reset =>
    rw [step_of_reset hrst] at h
    obtain ⟨_, rfl⟩ := resetCore_next h
    exact State.afterReset_runResult _ _ _ _ _
  case start =>
    rw [step_of_start hrst hidle hstart] at h
    obtain rfl | rfl := startRun_next_beginRun h
    · simp at hends
    · exact State.raise_runResult (by decide)
  case idle =>
    rw [step_of_idle hrst hidle hstart] at h
    cases h
    rfl

/-- Settles O52: `halted` is set where `halt` stands, a START goes to index 0, and the halted core's next step ends the
run. -/
theorem haltedRunsStandAtAHalt : Obligations.HaltedRunsStandAtAHalt := by
  refine ⟨nofun, fun s t hstands h hactive hhalted => ?_⟩
  cases step_event h with
  | resets | failsPreflight | ends | raises => cases hactive
  | idles => exact hstands hactive hhalted
  | begins => exact .inl rfl
  | executes i _ about effect =>
    obtain ⟨_, _, hrunning, w, hfetch, hdecode⟩ := about
    obtain hsame | ⟨rfl, rfl⟩ := effect.halted_eq_or_halts
    · simp [hsame, hrunning] at hhalted
    · exact .inr ⟨w, hfetch, hdecode⟩

end Sys2Proof.Machine
end

section
/-!
SUPPORT. The quotient rounded toward zero by signs and magnitudes (`spec/41_arith.md` R63), a sequence of pushes
(`spec/60_exceptions.md` R92), and `load` after `unload` (`spec/42_register.md` R65, R66).
-/

namespace Sys2Proof.Machine

variable {s t : State}

/-- The quotient of integers rounded toward zero has the product of the signs and the floor of the magnitudes. -/
theorem tdiv_eq_sign_mul_natAbs_div (a b : Int) :
    a.tdiv b = a.sign * b.sign * ((a.natAbs / b.natAbs : Nat) : Int) := by
  have hmagnitude : (a.tdiv b).natAbs = a.natAbs / b.natAbs := Int.natAbs_tdiv a b
  rw [← Int.sign_mul_natAbs (a.tdiv b), Int.sign_tdiv, hmagnitude]
  split
  · next hlt => simp [Nat.div_eq_of_lt hlt]
  · rfl

/-- A push that completes is the first of the pushes. -/
theorem pushAll_cons {v : Word} {vs : List Word} (h : exec (.push v) s = .next t) :
    pushAll (v :: vs) s = pushAll vs t := by
  rw [pushAll, h]

/-- Pushes that the stack has room for complete: they put the values in order above the old `S`, and of the rest they
move only `S` and `ip`. -/
theorem pushAll_completes (vs : List Word) (s : State) (hroom : s.size + vs.length ≤ s.cap) :
    ∃ t, pushAll vs s = .next t ∧ t = { s with slots := t.slots, size := s.size + vs.length, ip := t.ip } ∧
      (∀ k (hk : k < vs.length), t.slot (s.size + k) = vs[k]) ∧ ∀ j < s.size, t.slot j = s.slot j := by
  induction vs generalizing s with
  | nil => exact ⟨s, rfl, rfl, nofun, fun _ _ => rfl⟩
  | cons v vs ih =>
    rw [List.length_cons] at hroom
    obtain ⟨t, hrest, hframe, hnew, hold⟩ :=
      ih ((s.setSlot s.size v).setSize (s.size + 1)).advance (by simp; omega)
    refine ⟨t, (pushAll_cons (pushValue_of_lt (by omega) v)).trans hrest, ?frame, fun k hk => ?values,
      fun j hj => ?below⟩
    case frame =>
      rw [List.length_cons, Nat.add_comm vs.length, ← Nat.add_assoc]
      exact hframe
    case values =>
      cases k with
      | zero => exact (hold s.size (Nat.lt_succ_self _)).trans ((State.slot_pushed v _ _).trans (if_pos rfl))
      | succ k =>
        have hk := hnew k (Nat.lt_of_succ_lt_succ hk)
        rw [State.advance_size, State.setSize_size, Nat.add_assoc, Nat.add_comm 1] at hk
        exact hk
    case below =>
      exact (hold j (Nat.lt_succ_of_lt hj)).trans ((State.slot_pushed v _ _).trans (if_neg hj.ne))

/-- Writing to a register the value it has changes nothing. -/
theorem State.setReg_self {r : Reg} {x : Word} (hx : s.reg? r = some x) : s.setReg r x = s := by
  obtain ⟨hlt, hget⟩ := List.getElem?_eq_some_iff.mp hx
  rw [State.setReg, ← hget, List.set_getElem_self]

/-- `load` of a register pops the top of the stack into it (R65). -/
theorem exec_load_of_pos {r : Reg} {x : Word} (hx : s.reg? r = some x) (hpos : 0 < s.size) (hcap : s.size ≤ s.cap) :
    exec (.load r) s = .next ((s.setReg r (s.slot (s.size - 1))).setSize (s.size - 1)).advance :=
  (withReg_of_some hx _).trans (withTop_of_pos hpos hcap _)

end Sys2Proof.Machine
end

section
/-!
PROOFS. The ALU (`spec/41_arith.md` R63), a stack filled beyond its capacity (`spec/60_exceptions.md` R92), and `unload`
followed by `load` (`spec/42_register.md` R66).
-/

namespace Sys2Proof.Machine

/-- Settles O32: the wrapped results are those of the vectors, and the quotient is that of signs and magnitudes. -/
theorem aluComputesWrappedResults : Obligations.AluComputesWrappedResults := by
  refine fun a b => ⟨aluAdd_eq_add a b, aluSub_eq_sub a b, aluMul_eq_mul a b, fun _ => ?quotient⟩
  rw [aluDiv, wrap64, tdiv_eq_sign_mul_natAbs_div]

/-- Settles O35: by induction on the values; a stack of `C` values then has no room. -/
theorem pushingBeyondTheCapacityOverflows : Obligations.PushingBeyondTheCapacityOverflows := by
  intro vs s hempty hlength
  obtain ⟨t, hpushed, hframe, hvalues, _⟩ := pushAll_completes vs s (by omega)
  simp only [hempty, Nat.zero_add] at hframe hvalues
  refine ⟨t, hpushed, hframe, hvalues, fun hfull v => ?overflows⟩
  have hsize : t.size = vs.length := by rw [hframe]
  have hcap : t.cap = s.cap := by rw [hframe]
  exact pushValue_of_full (by omega) v

/-- Settles O42: `load` pops what `unload` pushed, the value the register has. -/
theorem unloadThenLoadRestoresTheState : Obligations.UnloadThenLoadRestoresTheState := by
  intro r s hr hroom
  obtain ⟨x, hx⟩ := State.reg_of_lt hr
  let t := ((s.setSlot s.size x).setSize (s.size + 1)).advance
  have hunload : exec (.unload r) s = .next t := (exec_unload_of_reg hx).trans (pushValue_of_lt hroom x)
  have hslot (j : Nat) : t.slot j = if j = s.size then x else s.slot j := State.slot_pushed x _ j
  have htop : t.slot (t.size - 1) = x := (hslot s.size).trans (if_pos rfl)
  have hload := exec_load_of_pos (s := t) hx (Nat.succ_pos _) hroom
  refine ⟨t, hunload, ?load, fun j hj => (hslot j).trans (if_neg hj)⟩
  rw [hload, htop, State.setReg_self (s := t) hx]
  rfl

end Sys2Proof.Machine
end
